-- ==== Sys2Proof/Word.lean ====
section
/-! DEFINITION. The word types of the machine (00_scope.md R7, R9). -/

namespace Sys2Proof

/-- `u32`: every register value, PC value, address and immediate (00_scope.md R9). -/
abbrev Word := BitVec 32

/-- One byte of either memory (20_memory.md R60). -/
abbrev Byte := BitVec 8

/-- `u5`: a register index (00_scope.md R7, R9). -/
abbrev Reg := BitVec 5

end Sys2Proof
end

