-- ==== Sys2Proof/Config.lean ====
section
/-! DEFINITION. What an implementation fixes (00_scope.md R7, R8), and the values the model gives the open parameters in
`State.reset`. The parameters themselves are data of the state (`Machine.Params`): every claim is for all of them. -/

namespace Sys2Proof

/-- `OPIMM_UNMATCHED` (00_scope.md R8; D15): what an OP-IMM word with funct3 001, 010, 011 or 101 does. -/
inductive OpImmUnmatched where
  /-- It is OPIMM_ZERO and writes 0: the spec's default. -/
  | zero
  /-- The model refuses it when it would enter EX. -/
  | refuse
  deriving DecidableEq, Repr

namespace Config

/-- The address width is 32 bits, so a memory has at most 2^32 bytes (00_scope.md R7, R8). -/
def maxMemorySize : Nat := 4294967296

/-- The reset vector (70_reset_and_hazards.md R241). -/
def resetVector : Word := 0

/-- The data width of an instruction and of a data access, in bytes (00_scope.md R7). -/
def wordBytes : Nat := 4

/-- What a byte inside a memory's size reads as when its list of bytes does not name it. DESIGN CHOICE (log entry 3). -/
def unlistedByte : Byte := 0

/-- `IMEM_SIZE` in `State.reset`. DESIGN CHOICE (log entry 2): the spec leaves the parameter open (D10). -/
def resetImemSize : Nat := maxMemorySize

/-- `DMEM_SIZE` in `State.reset`. DESIGN CHOICE (log entry 2): the spec leaves the parameter open (D10). -/
def resetDmemSize : Nat := maxMemorySize

/-- `OPIMM_UNMATCHED` in `State.reset`: the spec's default (00_scope.md R8). -/
def resetOpImmUnmatched : OpImmUnmatched := .zero

end Config

end Sys2Proof
end

