-- ==== Sys2Proof/Syntax.lean ====
section
/-! DEFINITION. The instructions: one constructor per row of spec/opcode_table.json (OPIMM_ZERO has two rows of one
mnemonic and one meaning, told apart by `funct3`), and the operation kinds of the decoded descriptor. -/

namespace Sys2Proof

/-- `OpKind`, the operation kind of the decoded descriptor (10_state.md R29), under the spec's names. -/
inductive OpKind where
  | ADD | SUB | XOR | OR | AND | OP_ZERO
  | ADDI | XORI | ORI | ANDI | OPIMM_ZERO
  | LW | SW | BEQ | BNE | JAL | HALT
  deriving DecidableEq, Repr

/-- An instruction, with every field its word holds (30_encoding.md R81 to R86). A field the decoder ignores (`funct3` of
a load or store, R98; of a branch that is not BEQ, R92; `funct7` and `funct3` of a fallback word, R96, R97; the word of a
HALT, R95) is kept, so that no bit of a word is lost. Offsets of branches and jumps are byte offsets whose bit 0 is zero
(R89, R90). -/
inductive Instr where
  | add (rd rs1 rs2 : Reg)
  | sub (rd rs1 rs2 : Reg)
  | xor (rd rs1 rs2 : Reg)
  | or (rd rs1 rs2 : Reg)
  | and (rd rs1 rs2 : Reg)
  | opZero (funct7 : BitVec 7) (funct3 : BitVec 3) (rd rs1 rs2 : Reg)
  | addi (rd rs1 : Reg) (imm : BitVec 12)
  | xori (rd rs1 : Reg) (imm : BitVec 12)
  | ori (rd rs1 : Reg) (imm : BitVec 12)
  | andi (rd rs1 : Reg) (imm : BitVec 12)
  | opimmZero (funct3 : BitVec 3) (rd rs1 : Reg) (imm : BitVec 12)
  | lw (funct3 : BitVec 3) (rd rs1 : Reg) (imm : BitVec 12)
  | sw (funct3 : BitVec 3) (rs1 rs2 : Reg) (imm : BitVec 12)
  | beq (rs1 rs2 : Reg) (off : BitVec 13)
  | bne (funct3 : BitVec 3) (rs1 rs2 : Reg) (off : BitVec 13)
  | jal (rd : Reg) (off : BitVec 21)
  | halt (word : Word)
  deriving DecidableEq, Repr

end Sys2Proof
end

