-- ==== Sys2Proof/WellFormed.lean ====
section
/-! DEFINITION. Which terms of `Instr` are instructions of the machine: the side conditions of the opcode table's rows
(30_encoding.md R89, R90, R92, R95 to R97). -/

namespace Sys2Proof

/-- The five (funct7, funct3) pairs that select an operation (30_encoding.md R92). -/
def isRTypePair (funct7 : BitVec 7) (funct3 : BitVec 3) : Bool :=
  (funct7 == 0b0000000 && (funct3 == 0b000 || funct3 == 0b100 || funct3 == 0b110 || funct3 == 0b111)) ||
    (funct7 == 0b0100000 && funct3 == 0b000)

/-- The four funct3 values that select an OP-IMM operation (30_encoding.md R92). -/
def isOpImmFunct3 (funct3 : BitVec 3) : Bool :=
  funct3 == 0b000 || funct3 == 0b100 || funct3 == 0b110 || funct3 == 0b111

/-- The six decoded opcodes (30_encoding.md R81, R95). -/
def isDecodedOpcode (opcode : BitVec 7) : Bool :=
  opcode == 0b0110011 || opcode == 0b0010011 || opcode == 0b0000011 ||
    opcode == 0b0100011 || opcode == 0b1100011 || opcode == 0b1101111

/-- An instruction is well formed when its fields are ones its row of the opcode table admits. -/
def Instr.wf : Instr → Bool
  | .add _ _ _ | .sub _ _ _ | .xor _ _ _ | .or _ _ _ | .and _ _ _ => true
  | .opZero funct7 funct3 _ _ _ => !isRTypePair funct7 funct3
  | .addi _ _ _ | .xori _ _ _ | .ori _ _ _ | .andi _ _ _ => true
  | .opimmZero funct3 _ _ _ => !isOpImmFunct3 funct3
  | .lw _ _ _ _ | .sw _ _ _ _ => true
  | .beq _ _ off => !off.getLsbD 0
  | .bne funct3 _ _ off => funct3 != 0b000 && !off.getLsbD 0
  | .jal _ off => !off.getLsbD 0
  | .halt word => !isDecodedOpcode (word.extractLsb' 0 7)

end Sys2Proof
end

