-- ==== Sys2Proof/Decode.lean ====
section
/-! DEFINITION. The decoder, total on any word and on any bytes (30_encoding.md R80 to R100), the encoder written from the
same field tables, the decoded descriptor (R91), the opcode table of spec/opcode_table.json as data, and the
pseudo-instructions (R102). -/

namespace Sys2Proof

/-! ## Fields of a word (30_encoding.md R80 to R86) -/

def opcodeOf (w : Word) : BitVec 7 := w.extractLsb' 0 7
def rdOf (w : Word) : Reg := w.extractLsb' 7 5
def funct3Of (w : Word) : BitVec 3 := w.extractLsb' 12 3
def rs1Of (w : Word) : Reg := w.extractLsb' 15 5
def rs2Of (w : Word) : Reg := w.extractLsb' 20 5
def funct7Of (w : Word) : BitVec 7 := w.extractLsb' 25 7

/-- I-type: imm[11:0] = w[31:20] (R83). -/
def immIOf (w : Word) : BitVec 12 := w.extractLsb' 20 12

/-- S-type: imm[11:5] = w[31:25], imm[4:0] = w[11:7] (R84). -/
def immSOf (w : Word) : BitVec 12 := w.extractLsb' 25 7 ++ w.extractLsb' 7 5

/-- B-type: the 13-bit offset from bits 31, 7, 30:25, 11:8, bit 0 zero (R85). -/
def immBOf (w : Word) : BitVec 13 :=
  w.extractLsb' 31 1 ++ w.extractLsb' 7 1 ++ w.extractLsb' 25 6 ++ w.extractLsb' 8 4 ++ 0#1

/-- J-type: the 21-bit offset from bits 31, 19:12, 20, 30:21, bit 0 zero (R86). -/
def immJOf (w : Word) : BitVec 21 :=
  w.extractLsb' 31 1 ++ w.extractLsb' 12 8 ++ w.extractLsb' 20 1 ++ w.extractLsb' 21 10 ++ 0#1

/-- `sext_N` to 32 bits (00_scope.md R10). -/
def sext {n : Nat} (v : BitVec n) : Word := v.signExtend 32

/-! ## The decoder (30_encoding.md R91, R92) -/

def opR : BitVec 7 := 0b0110011
def opImm : BitVec 7 := 0b0010011
def opLoad : BitVec 7 := 0b0000011
def opStore : BitVec 7 := 0b0100011
def opBranch : BitVec 7 := 0b1100011
def opJal : BitVec 7 := 0b1101111

/-- Opcode 0110011: the pair (funct7, funct3) selects; every other pair is OP_ZERO (R92, R96). -/
def decodeR (w : Word) : Instr :=
  let rd := rdOf w
  let rs1 := rs1Of w
  let rs2 := rs2Of w
  if funct7Of w = 0b0000000 ∧ funct3Of w = 0b000 then .add rd rs1 rs2
  else if funct7Of w = 0b0100000 ∧ funct3Of w = 0b000 then .sub rd rs1 rs2
  else if funct7Of w = 0b0000000 ∧ funct3Of w = 0b100 then .xor rd rs1 rs2
  else if funct7Of w = 0b0000000 ∧ funct3Of w = 0b110 then .or rd rs1 rs2
  else if funct7Of w = 0b0000000 ∧ funct3Of w = 0b111 then .and rd rs1 rs2
  else .opZero (funct7Of w) (funct3Of w) rd rs1 rs2

/-- Opcode 0010011: funct3 selects; every other value is OPIMM_ZERO (R92, R97). -/
def decodeOpImm (w : Word) : Instr :=
  let rd := rdOf w
  let rs1 := rs1Of w
  let imm := immIOf w
  if funct3Of w = 0b000 then .addi rd rs1 imm
  else if funct3Of w = 0b100 then .xori rd rs1 imm
  else if funct3Of w = 0b110 then .ori rd rs1 imm
  else if funct3Of w = 0b111 then .andi rd rs1 imm
  else .opimmZero (funct3Of w) rd rs1 imm

/-- Opcode 1100011: "funct3 selects BEQ (`000`) vs BNE (else)" (R92). -/
def decodeBranch (w : Word) : Instr :=
  if funct3Of w = 0b000 then .beq (rs1Of w) (rs2Of w) (immBOf w)
  else .bne (funct3Of w) (rs1Of w) (rs2Of w) (immBOf w)

/-- The instruction a word is (30_encoding.md R91): total; a word whose opcode is not one of the six is HALT (R95). -/
def decodeWord (w : Word) : Instr :=
  if opcodeOf w = opR then decodeR w
  else if opcodeOf w = opImm then decodeOpImm w
  else if opcodeOf w = opLoad then .lw (funct3Of w) (rdOf w) (rs1Of w) (immIOf w)
  else if opcodeOf w = opStore then .sw (funct3Of w) (rs1Of w) (rs2Of w) (immSOf w)
  else if opcodeOf w = opBranch then decodeBranch w
  else if opcodeOf w = opJal then .jal (rdOf w) (immJOf w)
  else .halt w

/-! ## Bytes: every instruction is four bytes, big-endian (30_encoding.md R80, R100; 20_memory.md R61) -/

/-- Four bytes as a word, the first in bits 31:24. -/
def wordOfBytes (b0 b1 b2 b3 : Byte) : Word := b0 ++ b1 ++ b2 ++ b3

/-- Byte `k` of a word in memory order: byte 0 is bits 31:24. -/
def byteOfWord (w : Word) (k : Nat) : Byte := w.extractLsb' (8 * (3 - k)) 8

/-- The four bytes of a word in memory order. -/
def bytesOfWord (w : Word) : List Byte := [byteOfWord w 0, byteOfWord w 1, byteOfWord w 2, byteOfWord w 3]

/-- Why bytes are not an instruction. No WORD is refused (R95); only a run of bytes that is too short is. -/
inductive DecodeError where
  /-- Fewer than four bytes are left: no instruction is shorter (R80, R100). -/
  | tooShort (bytes : Nat)
  deriving DecidableEq, Repr

/-- The instruction at the head of a run of bytes, and the bytes after it. -/
def decode : List Byte → Except DecodeError (Instr × List Byte)
  | b0 :: b1 :: b2 :: b3 :: rest => .ok (decodeWord (wordOfBytes b0 b1 b2 b3), rest)
  | bytes => .error (.tooShort bytes.length)

/-! ## The encoder (30_encoding.md R82 to R86, R92) -/

/-- R-type layout (R82). -/
def encodeR (funct7 : BitVec 7) (rs2 rs1 : Reg) (funct3 : BitVec 3) (rd : Reg) : Word :=
  funct7 ++ rs2 ++ rs1 ++ funct3 ++ rd ++ opR

/-- I-type layout (R83). -/
def encodeI (imm : BitVec 12) (rs1 : Reg) (funct3 : BitVec 3) (rd : Reg) (opcode : BitVec 7) : Word :=
  imm ++ rs1 ++ funct3 ++ rd ++ opcode

/-- S-type layout (R84). -/
def encodeS (imm : BitVec 12) (rs2 rs1 : Reg) (funct3 : BitVec 3) : Word :=
  imm.extractLsb' 5 7 ++ rs2 ++ rs1 ++ funct3 ++ imm.extractLsb' 0 5 ++ opStore

/-- B-type layout (R85). -/
def encodeB (off : BitVec 13) (rs2 rs1 : Reg) (funct3 : BitVec 3) : Word :=
  off.extractLsb' 12 1 ++ off.extractLsb' 5 6 ++ rs2 ++ rs1 ++ funct3 ++
    off.extractLsb' 1 4 ++ off.extractLsb' 11 1 ++ opBranch

/-- J-type layout (R86). -/
def encodeJ (off : BitVec 21) (rd : Reg) : Word :=
  off.extractLsb' 20 1 ++ off.extractLsb' 1 10 ++ off.extractLsb' 11 1 ++ off.extractLsb' 12 8 ++ rd ++ opJal

/-- The word of a well-formed instruction. -/
def encode : Instr → Word
  | .add rd rs1 rs2 => encodeR 0b0000000 rs2 rs1 0b000 rd
  | .sub rd rs1 rs2 => encodeR 0b0100000 rs2 rs1 0b000 rd
  | .xor rd rs1 rs2 => encodeR 0b0000000 rs2 rs1 0b100 rd
  | .or rd rs1 rs2 => encodeR 0b0000000 rs2 rs1 0b110 rd
  | .and rd rs1 rs2 => encodeR 0b0000000 rs2 rs1 0b111 rd
  | .opZero funct7 funct3 rd rs1 rs2 => encodeR funct7 rs2 rs1 funct3 rd
  | .addi rd rs1 imm => encodeI imm rs1 0b000 rd opImm
  | .xori rd rs1 imm => encodeI imm rs1 0b100 rd opImm
  | .ori rd rs1 imm => encodeI imm rs1 0b110 rd opImm
  | .andi rd rs1 imm => encodeI imm rs1 0b111 rd opImm
  | .opimmZero funct3 rd rs1 imm => encodeI imm rs1 funct3 rd opImm
  | .lw funct3 rd rs1 imm => encodeI imm rs1 funct3 rd opLoad
  | .sw funct3 rs1 rs2 imm => encodeS imm rs2 rs1 funct3
  | .beq rs1 rs2 off => encodeB off rs2 rs1 0b000
  | .bne funct3 rs1 rs2 off => encodeB off rs2 rs1 funct3
  | .jal rd off => encodeJ off rd
  | .halt word => word

/-- The bytes of an instruction as memory holds them. -/
def encodeBytes (i : Instr) : List Byte := bytesOfWord (encode i)

/-! ## The decoded descriptor (30_encoding.md R91) -/

/-- `Desc`: the decoded-instruction descriptor (30_encoding.md R91; types of 10_state.md R30). -/
structure Desc where
  op : OpKind
  rs1 : Reg
  rs2 : Reg
  rd : Reg
  imm : Word
  isIType : Bool
  rdMem : Bool
  wrtMem : Bool
  wrtRf : Bool
  deriving DecidableEq, Repr

/-- R91, opcode 0110011. -/
def Desc.rType (op : OpKind) (rd rs1 rs2 : Reg) : Desc :=
  { op, rs1, rs2, rd, imm := 0, isIType := false, rdMem := false, wrtMem := false, wrtRf := true }

/-- R91, opcode 0010011. -/
def Desc.opImm (op : OpKind) (rd rs1 : Reg) (imm : BitVec 12) : Desc :=
  { op, rs1, rs2 := 0, rd, imm := sext imm, isIType := true, rdMem := false, wrtMem := false, wrtRf := true }

/-- R91, opcode 1100011. -/
def Desc.branch (op : OpKind) (rs1 rs2 : Reg) (off : BitVec 13) : Desc :=
  { op, rs1, rs2, rd := 0, imm := sext off, isIType := false, rdMem := false, wrtMem := false, wrtRf := false }

/-- The descriptor of an instruction: the right-hand sides of R91. -/
def Instr.desc : Instr → Desc
  | .add rd rs1 rs2 => .rType .ADD rd rs1 rs2
  | .sub rd rs1 rs2 => .rType .SUB rd rs1 rs2
  | .xor rd rs1 rs2 => .rType .XOR rd rs1 rs2
  | .or rd rs1 rs2 => .rType .OR rd rs1 rs2
  | .and rd rs1 rs2 => .rType .AND rd rs1 rs2
  | .opZero _ _ rd rs1 rs2 => .rType .OP_ZERO rd rs1 rs2
  | .addi rd rs1 imm => .opImm .ADDI rd rs1 imm
  | .xori rd rs1 imm => .opImm .XORI rd rs1 imm
  | .ori rd rs1 imm => .opImm .ORI rd rs1 imm
  | .andi rd rs1 imm => .opImm .ANDI rd rs1 imm
  | .opimmZero _ rd rs1 imm => .opImm .OPIMM_ZERO rd rs1 imm
  | .lw _ rd rs1 imm =>
    { op := .LW, rs1, rs2 := 0, rd, imm := sext imm, isIType := true, rdMem := true, wrtMem := false, wrtRf := true }
  | .sw _ rs1 rs2 imm =>
    { op := .SW, rs1, rs2, rd := 0, imm := sext imm, isIType := true, rdMem := false, wrtMem := true, wrtRf := false }
  | .beq rs1 rs2 off => .branch .BEQ rs1 rs2 off
  | .bne _ rs1 rs2 off => .branch .BNE rs1 rs2 off
  | .jal rd off =>
    { op := .JAL, rs1 := 0, rs2 := 0, rd, imm := sext off, isIType := false, rdMem := false, wrtMem := false,
      wrtRf := true }
  | .halt _ =>
    { op := .HALT, rs1 := 0, rs2 := 0, rd := 0, imm := 0, isIType := false, rdMem := false, wrtMem := false,
      wrtRf := false }

/-- `decode(w) -> Desc` of R91. -/
def descOf (w : Word) : Desc := (decodeWord w).desc

/-- `decode(w).op = HALT`, the test of the IF stage (45_pipeline_engine.md R175). -/
def isHalt (w : Word) : Bool := decide ((descOf w).op = .HALT)

/-! ## The opcode table as data (spec/opcode_table.json) -/

/-- A row: a word is the row's when `w & mask = value` and the same fails for every pair of `exclude` (INDEX.md). -/
structure TableRow where
  op : OpKind
  value : Word
  mask : Word
  exclude : List (Word × Word)
  deriving DecidableEq, Repr

def TableRow.covers (row : TableRow) (w : Word) : Bool :=
  (w &&& row.mask) == row.value && row.exclude.all fun (value, mask) => (w &&& mask) != value

/-- The rows of opcode 0110011, in the table's order. -/
def tableR : List TableRow :=
  [ { op := .ADD, value := 0x00000033, mask := 0xFE00707F, exclude := [] },
    { op := .SUB, value := 0x40000033, mask := 0xFE00707F, exclude := [] },
    { op := .XOR, value := 0x00004033, mask := 0xFE00707F, exclude := [] },
    { op := .OR, value := 0x00006033, mask := 0xFE00707F, exclude := [] },
    { op := .AND, value := 0x00007033, mask := 0xFE00707F, exclude := [] },
    { op := .OP_ZERO, value := 0x00000033, mask := 0x0000007F,
      exclude := [(0x00000033, 0xFE00707F), (0x40000033, 0xFE00707F), (0x00004033, 0xFE00707F),
        (0x00006033, 0xFE00707F), (0x00007033, 0xFE00707F)] } ]

/-- The rows of opcode 0010011. -/
def tableOpImm : List TableRow :=
  [ { op := .ADDI, value := 0x00000013, mask := 0x0000707F, exclude := [] },
    { op := .XORI, value := 0x00004013, mask := 0x0000707F, exclude := [] },
    { op := .ORI, value := 0x00006013, mask := 0x0000707F, exclude := [] },
    { op := .ANDI, value := 0x00007013, mask := 0x0000707F, exclude := [] },
    { op := .OPIMM_ZERO, value := 0x00001013, mask := 0x0000307F, exclude := [] },
    { op := .OPIMM_ZERO, value := 0x00002013, mask := 0x0000607F, exclude := [] } ]

/-- The other rows. -/
def tableRest : List TableRow :=
  [ { op := .LW, value := 0x00000003, mask := 0x0000007F, exclude := [] },
    { op := .SW, value := 0x00000023, mask := 0x0000007F, exclude := [] },
    { op := .BEQ, value := 0x00000063, mask := 0x0000707F, exclude := [] },
    { op := .BNE, value := 0x00000063, mask := 0x0000007F, exclude := [(0x00000063, 0x0000707F)] },
    { op := .JAL, value := 0x0000006F, mask := 0x0000007F, exclude := [] },
    { op := .HALT, value := 0x00000000, mask := 0x00000000,
      exclude := [(0x00000033, 0x0000007F), (0x00000013, 0x0000007F), (0x00000003, 0x0000007F),
        (0x00000023, 0x0000007F), (0x00000063, 0x0000007F), (0x0000006F, 0x0000007F)] } ]

/-- The eighteen rows. -/
def opcodeTable : List TableRow := tableR ++ tableOpImm ++ tableRest

/-! ## Pseudo-instructions (30_encoding.md R102) -/

def Pseudo.nop : Instr := .addi 0 0 0
def Pseudo.mv (rd rs : Reg) : Instr := .addi rd rs 0
def Pseudo.li (rd : Reg) (imm : BitVec 12) : Instr := .addi rd 0 imm
def Pseudo.not (rd rs : Reg) : Instr := .xori rd rs (BitVec.allOnes 12)
def Pseudo.neg (rd rs : Reg) : Instr := .sub rd 0 rs
def Pseudo.beqz (rs : Reg) (off : BitVec 13) : Instr := .beq rs 0 off
def Pseudo.bnez (rs : Reg) (off : BitVec 13) : Instr := .bne 0b001 rs 0 off
def Pseudo.j (off : BitVec 21) : Instr := .jal 0 off

/-- The canonical HALT word (30_encoding.md R95, R101; D19). -/
def haltWord : Word := 0xFFFFFFFF

/-! ## The host's view of the decoder -/

/-- The word whose bits, numbered as spec/opcode_table.json numbers them, are the low `nbits` bits of `w`. -/
def tableWord (nbits w : Nat) : Word := BitVec.ofNat 32 (w % 2 ^ nbits)

/-- The instruction the decoder reads from an instruction whose bits are `w`: its word laid out in memory order and
decoded; none where the decoder refuses or the instruction would be longer than any (30_encoding.md R100). -/
def decodeTableWord (nbits w : Nat) : Option Instr :=
  if nbits ≤ 32 then
    match decode (bytesOfWord (tableWord nbits w)) with
    | .ok (i, _) => some i
    | .error _ => none
  else none

end Sys2Proof
end

