-- ==== Sys2Proof/Machine/State.lean ====
section
/-! DEFINITION. The state of the pipelined core (10_state.md R20 to R38): the five latches under the spec's names, the
register file, the data memory, the counters, the halted flag, and beside them the run's parameters (00_scope.md R8). Also
the outcomes other than a next state (60_exceptions.md R221) and the state at reset (R38). -/

namespace Sys2Proof.Machine

/-- A memory (20_memory.md R60): `size` bytes at addresses 0 to size - 1. `cells` lists, by rising address, the bytes that
are not `Config.unlistedByte` (log entry 3), so that equal memories are equal data (`Memory.wf`). -/
structure Memory where
  size : Nat
  cells : List Host.Cell
  deriving DecidableEq, Repr

/-- The parameters a run is given and never changes (00_scope.md R8; log entry 1). -/
structure Params where
  /-- `IMEM` and `IMEM_SIZE`. -/
  imem : Memory
  /-- `DMEM_INIT` and `DMEM_SIZE`. -/
  dmemInit : Memory
  /-- `OPIMM_UNMATCHED`. -/
  opimmUnmatched : OpImmUnmatched
  deriving DecidableEq, Repr

/-- The IF latch (10_state.md R27). -/
structure IFLatch where
  nop : Bool
  pc : Word
  deriving DecidableEq, Repr

/-- The ID latch (10_state.md R28). -/
structure IDLatch where
  nop : Bool
  pc : Word
  instr : Word
  deriving DecidableEq, Repr

/-- The EX latch (10_state.md R30). -/
structure EXLatch where
  nop : Bool
  pc : Word
  op : OpKind
  rs1 : Reg
  rs2 : Reg
  rd : Reg
  imm : Word
  rv1 : Word
  rv2 : Word
  isIType : Bool
  rdMem : Bool
  wrtMem : Bool
  wrtRf : Bool
  deriving DecidableEq, Repr

/-- The MEM latch (10_state.md R31). -/
structure MEMLatch where
  nop : Bool
  aluResult : Word
  storeData : Word
  rd : Reg
  rdMem : Bool
  wrtMem : Bool
  wrtRf : Bool
  deriving DecidableEq, Repr

/-- The WB latch (10_state.md R32). -/
structure WBLatch where
  nop : Bool
  wdata : Word
  rd : Reg
  wrtRf : Bool
  deriving DecidableEq, Repr

/-- `bubble_ID` (10_state.md R33). -/
def IDLatch.bubble : IDLatch := { nop := true, pc := 0, instr := 0 }

/-- `bubble_EX` (10_state.md R33). -/
def EXLatch.bubble : EXLatch :=
  { nop := true, pc := 0, op := .HALT, rs1 := 0, rs2 := 0, rd := 0, imm := 0, rv1 := 0, rv2 := 0, isIType := false,
    rdMem := false, wrtMem := false, wrtRf := false }

/-- `bubble_MEM` (10_state.md R33). -/
def MEMLatch.bubble : MEMLatch :=
  { nop := true, aluResult := 0, storeData := 0, rd := 0, rdMem := false, wrtMem := false, wrtRf := false }

/-- `bubble_WB` (10_state.md R33). -/
def WBLatch.bubble : WBLatch := { nop := true, wdata := 0, rd := 0, wrtRf := false }

/-- The storage of the register file: 32 words (10_state.md R20). All reads and writes go through `readReg`, `rfread` and
`writeReg`, which hard-wire r0. -/
abbrev RegFile := Vector Word 32

/-- The state of the machine (10_state.md R37). `IF.pc` is the fetch program counter (R23). -/
structure State where
  params : Params
  IF : IFLatch
  ID : IDLatch
  EX : EXLatch
  MEM : MEMLatch
  WB : WBLatch
  rf : RegFile
  dmem : Memory
  cycle : Nat
  retired : Nat
  halted : Bool
  deriving DecidableEq, Repr

/-- The faults of 60_exceptions.md R221. The advance that meets one commits nothing (45_pipeline_engine.md R183). -/
inductive Fault where
  /-- IF reads a word not wholly inside IMEM (20_memory.md R61). Safe: the hardware's behaviour there is unknown (D10),
  and nothing is claimed of a run that goes on past it. -/
  | fetchOutOfRange (pc : Word)
  /-- MEM reads or writes, for LW or SW, a word not wholly inside DMEM (20_memory.md R62, R63). Safe, as above. -/
  | dataOutOfRange (addr : Word)
  deriving DecidableEq, Repr

/-- Why the model gives no next state although no memory access is out of range. -/
inductive Refusal where
  /-- An instruction without a meaning in this model. Raised by no arm of `exec`: every row of the table has its meaning. -/
  | notModelled (mnemonic : String)
  /-- ID refuses an OP-IMM word with funct3 001, 010, 011 or 101 that would enter EX, only when the parameter
  `OPIMM_UNMATCHED` is `refuse` (45_pipeline_engine.md R170; D15). Safe: nothing is claimed past it. -/
  | unmatchedOpImm (pc word : Word)
  /-- The state is halted: "No advance is defined from a state with `halted` = true" (45_pipeline_engine.md R161).
  Safe: the run is over. -/
  | halted
  deriving DecidableEq, Repr

/-- What a cycle, a meaning and a step answer (45_pipeline_engine.md R160). -/
abbrev Outcome := Host.Outcome State Fault Refusal

/-- The register file at reset: every register 0 (10_state.md R38; D8). -/
def RegFile.reset : RegFile := Vector.replicate 32 0

/-- The state at reset, for any parameters (10_state.md R38). -/
def State.resetWith (params : Params) : State :=
  { params
    IF := { nop := false, pc := Config.resetVector }
    ID := .bubble
    EX := .bubble
    MEM := .bubble
    WB := .bubble
    rf := .reset
    dmem := params.dmemInit
    cycle := 0
    retired := 0
    halted := false }

/-- The parameters of `State.reset`: memories of the greatest size with nothing listed, and the spec's default for
`OPIMM_UNMATCHED`. DESIGN CHOICE (log entry 2): the spec leaves the sizes and images open. -/
def Params.reset : Params :=
  { imem := { size := Config.resetImemSize, cells := [] }
    dmemInit := { size := Config.resetDmemSize, cells := [] }
    opimmUnmatched := Config.resetOpImmUnmatched }

/-- The machine right after reset, with no program loaded: R38 at `Params.reset`. -/
def State.reset : State := .resetWith .reset

/-- Asserting the `reset` input (70_reset_and_hazards.md R240): every piece of state takes its reset value, whatever it was;
the parameters stay. -/
def State.assertReset (s : State) : State := .resetWith s.params

end Sys2Proof.Machine
end

