-- ==== Sys2Proof/Machine/Ops.lean ====
section
/-! DEFINITION. The named operations over memories and registers: the collaborators of the core (10_state.md R20, R21;
20_memory.md R61 to R63) and the images at launch (20_memory.md R68, R73). The hardware takes no exception and returns from
none (60_exceptions.md R220, R224, R225), so there is no trap-entry operation here; the two fault outcomes of R221 are
raised by `imemRead`, `memRead` and `memWrite` alone. -/

namespace Sys2Proof.Machine

/-! ## Bytes of a memory -/

/-- The byte the cells give at an address. -/
def readCell : List Host.Cell → Nat → Byte
  | [], _ => Config.unlistedByte
  | (k, v) :: rest, a => if k = a then v else readCell rest a

/-- The cells with one byte replaced, in the canonical form (`Memory.wf`): rising addresses, no byte listed that an
unlisted address reads as. -/
def writeCell : List Host.Cell → Nat → Byte → List Host.Cell
  | [], a, b => if b = Config.unlistedByte then [] else [(a, b)]
  | (k, v) :: rest, a, b =>
    if k < a then (k, v) :: writeCell rest a b
    else
      let above := if k = a then rest else (k, v) :: rest
      if b = Config.unlistedByte then above else (a, b) :: above

/-- From address `low` up the addresses rise strictly, each is below `size`, and no byte is `Config.unlistedByte`. -/
def cellsWf (size : Nat) : Nat → List Host.Cell → Bool
  | _, [] => true
  | low, (k, v) :: rest => decide (low ≤ k ∧ k < size ∧ v ≠ Config.unlistedByte) && cellsWf size (k + 1) rest

/-- The canonical form of a memory, and the bound on its size (00_scope.md R8). -/
def Memory.wf (m : Memory) : Bool := decide (m.size ≤ Config.maxMemorySize) && cellsWf m.size 0 m.cells

def Memory.readByte (m : Memory) (a : Nat) : Byte := readCell m.cells a

def Memory.writeByte (m : Memory) (a : Nat) (b : Byte) : Memory := { m with cells := writeCell m.cells a b }

/-- The word at `a` lies wholly inside the memory: a + 3 < size, computed without wrap (20_memory.md R61 to R63). -/
abbrev Memory.inRange (m : Memory) (a : Word) : Prop := a.toNat + 3 < m.size

/-- Four consecutive bytes, big-endian (20_memory.md R61, R62; D9 for data), range check apart. -/
def Memory.readWord (m : Memory) (a : Word) : Word :=
  wordOfBytes (m.readByte a.toNat) (m.readByte (a.toNat + 1)) (m.readByte (a.toNat + 2)) (m.readByte (a.toNat + 3))

/-- Four consecutive bytes written, most significant first (20_memory.md R63; D9), range check apart. -/
def Memory.writeWord (m : Memory) (a v : Word) : Memory :=
  (((m.writeByte a.toNat (byteOfWord v 0)).writeByte (a.toNat + 1) (byteOfWord v 1)).writeByte
    (a.toNat + 2) (byteOfWord v 2)).writeByte (a.toNat + 3) (byteOfWord v 3)

/-! ## The access primitives -/

/-- `IMemRead` (20_memory.md R61). -/
def imemRead (imem : Memory) (a : Word) : Except Fault Word :=
  if imem.inRange a then .ok (imem.readWord a) else .error (.fetchOutOfRange a)

/-- `MemRead(a, 4)` (20_memory.md R62). -/
def memRead (dmem : Memory) (a : Word) : Except Fault Word :=
  if dmem.inRange a then .ok (dmem.readWord a) else .error (.dataOutOfRange a)

/-- `MemWrite(a, 4, v)` (20_memory.md R63): the four byte writes are one action (D9). -/
def memWrite (dmem : Memory) (a v : Word) : Except Fault Memory :=
  if dmem.inRange a then .ok (dmem.writeWord a v) else .error (.dataOutOfRange a)

/-! ## Registers (10_state.md R20, R21) -/

/-- `readRegister(idx)`: r0 reads as 0 (R20; D1). -/
def readReg (rf : RegFile) (r : Reg) : Word := if r = 0 then 0 else rf[r.toNat]

/-- `writeRegister(idx, value)`: a write of r0 is discarded (R20; D1). -/
def writeReg (rf : RegFile) (r : Reg) (v : Word) : RegFile := if r = 0 then rf else rf.set r.toNat v

/-! ## Images (20_memory.md R68, R73; D20) -/

/-- The cells of a run of bytes from address `a` up. -/
def cellsOfBytes : Nat → List Byte → List Host.Cell
  | _, [] => []
  | a, b :: rest => if b = Config.unlistedByte then cellsOfBytes (a + 1) rest else (a, b) :: cellsOfBytes (a + 1) rest

/-- The memory an image file fills: line k, counting from 0, is the byte at address k, and the size is the number of lines
(20_memory.md R68; D20). -/
def Memory.ofImage (lines : List Byte) : Memory := { size := lines.length, cells := cellsOfBytes 0 lines }

/-- An image in a data memory the host sizes otherwise, which D20 allows without saying what then holds. DESIGN CHOICE (log
entry 23): a size below the image is raised to the line count, so that no byte of the image is cut off, and a byte past the
image is unlisted, so it reads as `Config.unlistedByte`. -/
def Memory.ofImageSized (size : Nat) (lines : List Byte) : Memory :=
  { size := max size lines.length, cells := cellsOfBytes 0 lines }

/-- A memory made at least `size` bytes long. -/
def Memory.growTo (m : Memory) (size : Nat) : Memory := { m with size := max m.size size }

/-- Launch (20_memory.md R73; 70_reset_and_hazards.md R243): the host supplies the images and the parameter, and the core
starts from reset. -/
def State.launch (imem dmem : List Byte) (opimmUnmatched : OpImmUnmatched) : State :=
  .resetWith { imem := .ofImage imem, dmemInit := .ofImage dmem, opimmUnmatched }

/-- Launch with the data memory sized by the host (D20; log entry 23). -/
def State.launchSized (dmemSize : Nat) (imem dmem : List Byte) (opimmUnmatched : OpImmUnmatched) : State :=
  .resetWith { imem := .ofImage imem, dmemInit := .ofImageSized dmemSize dmem, opimmUnmatched }

end Sys2Proof.Machine
end

