-- ==== Sys2Proof/Machine/Flags.lean ====
section
/-! DEFINITION. The hardware has no condition codes and no status flags (10_state.md R25): what an ALU operation carries or
overflows is discarded (41_integer.md R122). What it has instead are the control flags of an operation kind (30_encoding.md
R93) and the branch comparison (45_pipeline_engine.md R168), both here. -/

namespace Sys2Proof

/-! ## The control flags of an operation kind (30_encoding.md R93)

The decoder sets the flags of a descriptor from its own right-hand sides (`Instr.desc`, R91); these functions are the table
of R93, against which they are checked. -/

def OpKind.isIType : OpKind → Bool
  | .ADD | .SUB | .XOR | .OR | .AND | .OP_ZERO => false
  | .ADDI | .XORI | .ORI | .ANDI | .OPIMM_ZERO => true
  | .LW | .SW => true
  | .BEQ | .BNE | .JAL | .HALT => false

def OpKind.rdMem : OpKind → Bool
  | .LW => true
  | .ADD | .SUB | .XOR | .OR | .AND | .OP_ZERO | .ADDI | .XORI | .ORI | .ANDI | .OPIMM_ZERO | .SW | .BEQ | .BNE | .JAL
  | .HALT => false

def OpKind.wrtMem : OpKind → Bool
  | .SW => true
  | .ADD | .SUB | .XOR | .OR | .AND | .OP_ZERO | .ADDI | .XORI | .ORI | .ANDI | .OPIMM_ZERO | .LW | .BEQ | .BNE | .JAL
  | .HALT => false

def OpKind.wrtRf : OpKind → Bool
  | .ADD | .SUB | .XOR | .OR | .AND | .OP_ZERO | .ADDI | .XORI | .ORI | .ANDI | .OPIMM_ZERO | .LW | .JAL => true
  | .SW | .BEQ | .BNE | .HALT => false

def OpKind.readsRs1 : OpKind → Bool
  | .JAL | .HALT => false
  | .ADD | .SUB | .XOR | .OR | .AND | .OP_ZERO | .ADDI | .XORI | .ORI | .ANDI | .OPIMM_ZERO | .LW | .SW | .BEQ
  | .BNE => true

def OpKind.readsRs2 : OpKind → Bool
  | .ADD | .SUB | .XOR | .OR | .AND | .OP_ZERO | .SW | .BEQ | .BNE => true
  | .ADDI | .XORI | .ORI | .ANDI | .OPIMM_ZERO | .LW | .JAL | .HALT => false

end Sys2Proof

namespace Sys2Proof.Machine

/-! ## The branch condition -/

/-- `taken` (45_pipeline_engine.md R168): JAL always; BEQ on equal and BNE on unequal operands; nothing else. -/
def taken (op : OpKind) (a b0 : Word) : Bool :=
  match op with
  | .JAL => true
  | .BEQ => a == b0
  | .BNE => a != b0
  | .ADD | .SUB | .XOR | .OR | .AND | .OP_ZERO | .ADDI | .XORI | .ORI | .ANDI | .OPIMM_ZERO | .LW | .SW | .HALT => false

end Sys2Proof.Machine
end

