-- ==== Sys2Proof/Machine/Operands.lean ====
section
/-! DEFINITION. Where an instruction's operands come from and what the ALU makes of them: the read in ID with its bypass
(45_pipeline_engine.md R171), the forwarding multiplexer into EX (R165), the operand-B multiplexer (R166), the ALU
(41_integer.md R110), the effective address (42_load_store.md R130) and the branch target (43_control_transfer.md R140). -/

namespace Sys2Proof.Machine

/-- WB writes register `r` in this cycle, r0 apart: the test of R165 and R171 on the WB latch. -/
abbrev WBLatch.writes (l : WBLatch) (r : Reg) : Prop := l.nop = false ∧ l.wrtRf = true ∧ l.rd = r

/-- The MEM latch holds a register result for `r` that is not a load's (R165). -/
abbrev MEMLatch.forwards (l : MEMLatch) (r : Reg) : Prop := l.nop = false ∧ l.wrtRf = true ∧ l.rdMem = false ∧ l.rd = r

/-- `rfread` (45_pipeline_engine.md R171; D4): ID sees the write WB makes in the same cycle. -/
def rfread (s : State) (r : Reg) : Word :=
  if r = 0 then 0
  else if s.WB.writes r then s.WB.wdata
  else readReg s.rf r

/-- `fwd` (45_pipeline_engine.md R165; D2): the younger producer, in the MEM latch, wins over the one in the WB latch; `v` is
the value read in ID; r0 is never forwarded. -/
def fwd (s : State) (r : Reg) (v : Word) : Word :=
  if r ≠ 0 ∧ s.MEM.forwards r then s.MEM.aluResult
  else if r ≠ 0 ∧ s.WB.writes r then s.WB.wdata
  else v

/-- Operand `a` of the instruction in EX, for the source index `r` (R165). -/
def operandA (s : State) (r : Reg) : Word := fwd s r s.EX.rv1

/-- Operand `b0` of the instruction in EX, for the source index `r` (R165). -/
def operandB0 (s : State) (r : Reg) : Word := fwd s r s.EX.rv2

/-- The operand-B multiplexer (45_pipeline_engine.md R166). -/
def operandB (isIType : Bool) (imm b0 : Word) : Word := if isIType then imm else b0

/-- `alu(op, a, b)` (41_integer.md R110; the zero of BEQ, BNE, JAL and HALT is D31). -/
def alu (op : OpKind) (a b : Word) : Word :=
  match op with
  | .ADD | .ADDI | .LW | .SW => a + b
  | .SUB => a - b
  | .XOR | .XORI => a ^^^ b
  | .OR | .ORI => a ||| b
  | .AND | .ANDI => a &&& b
  | .OP_ZERO | .OPIMM_ZERO => 0
  | .BEQ | .BNE | .JAL | .HALT => 0

/-- The effective address of a load or store: base plus sign-extended offset, modulo 2^32 (42_load_store.md R130). -/
def effectiveAddress (base : Word) (imm : BitVec 12) : Word := base + sext imm

/-- The target of a branch or jump at `pc`: pc plus sign-extended offset, modulo 2^32 (43_control_transfer.md R140). -/
def branchTarget {n : Nat} (pc : Word) (off : BitVec n) : Word := pc + sext off

/-- The next sequential PC, and the link value of JAL (10_state.md R23; 43_control_transfer.md R143). -/
def pcPlus4 (pc : Word) : Word := pc + 4

end Sys2Proof.Machine
end

