-- ==== Sys2Proof/Machine/Stages.lean ====
section
/-! DEFINITION. The five stages of one advance, each a function of the current state alone (45_pipeline_engine.md R160 to
R180), and the cycle that commits them together (R161, R182, R183). -/

namespace Sys2Proof.Machine

/-! ## WB (45_pipeline_engine.md R162) -/

/-- `rf'`: WB commits when its latch is valid, `wrtRf` is set and the index is not 0 (the last in `writeReg`; D1). -/
def wbRf (s : State) : RegFile :=
  if s.WB.nop = false ∧ s.WB.wrtRf = true then writeReg s.rf s.WB.rd s.WB.wdata else s.rf

/-- `retired'`: every valid WB latch counts (D17). -/
def wbRetired (s : State) : Nat := s.retired + if s.WB.nop then 0 else 1

/-! ## MEM (45_pipeline_engine.md R163) -/

/-- `dmem'`. -/
def memDmem (s : State) : Except Fault Memory :=
  if s.MEM.nop = false ∧ s.MEM.wrtMem = true then memWrite s.dmem s.MEM.aluResult s.MEM.storeData else .ok s.dmem

/-- `data`: the loaded word of a load, else the EX result. -/
def memData (s : State) : Except Fault Word :=
  if s.MEM.nop = false ∧ s.MEM.rdMem = true then memRead s.dmem s.MEM.aluResult else .ok s.MEM.aluResult

/-- The MEM stage: the data memory after it and the next WB latch, or the fault of its access. -/
def memStage (s : State) : Except Fault (Memory × WBLatch) :=
  if s.MEM.nop then .ok (s.dmem, .bubble)
  else
    match memDmem s with
    | .error f => .error f
    | .ok dmem =>
      match memData s with
      | .error f => .error f
      | .ok data => .ok (dmem, { nop := false, wdata := data, rd := s.MEM.rd, wrtRf := s.MEM.wrtRf })

/-! ## EX (45_pipeline_engine.md R164 to R168) -/

/-- What EX hands on: the next MEM latch, and the redirect to the IF and ID stages of the same cycle (R160). -/
structure ExOut where
  mem : MEMLatch
  redirect : Option Word
  deriving DecidableEq, Repr

/-- EX of a bubble (R164). -/
def ExOut.bubble : ExOut := { mem := .bubble, redirect := none }

/-- The EX stage as R164 to R168 write it, over the fields of the EX latch. -/
def exStage (s : State) : ExOut :=
  if s.EX.nop then .bubble
  else
    let a := operandA s s.EX.rs1
    let b0 := operandB0 s s.EX.rs2
    let b := operandB s.EX.isIType s.EX.imm b0
    { mem :=
        { nop := false
          aluResult := if s.EX.op = .JAL then pcPlus4 s.EX.pc else alu s.EX.op a b
          storeData := b0
          rd := s.EX.rd
          rdMem := s.EX.rdMem
          wrtMem := s.EX.wrtMem
          wrtRf := s.EX.wrtRf }
      redirect := if taken s.EX.op a b0 then some (s.EX.pc + s.EX.imm) else none }

/-! ## ID (45_pipeline_engine.md R170 to R173) -/

/-- `d`: the descriptor of the word in the ID latch (R170). -/
def idDesc (s : State) : Desc := descOf s.ID.instr

/-- The hazard-detection unit (R172; D3): the instruction in EX is a load of a register the one in ID reads. -/
def stall (s : State) : Bool :=
  !s.ID.nop && !s.EX.nop && s.EX.rdMem && s.EX.rd != 0 &&
    ((idDesc s).rs1 == s.EX.rd || (idDesc s).rs2 == s.EX.rd)

/-- A decoded instruction in the EX latch (R173). -/
def EXLatch.ofDesc (d : Desc) (pc rv1 rv2 : Word) : EXLatch :=
  { nop := false, pc, op := d.op, rs1 := d.rs1, rs2 := d.rs2, rd := d.rd, imm := d.imm, rv1, rv2, isIType := d.isIType,
    rdMem := d.rdMem, wrtMem := d.wrtMem, wrtRf := d.wrtRf }

/-- The ID stage: the next EX latch (R173), or the refusal of an unmatched OP-IMM word that would enter it (R170; D15). -/
def idStage (redirect : Option Word) (s : State) : Except Refusal EXLatch :=
  if redirect ≠ none ∨ s.ID.nop = true ∨ stall s = true then .ok .bubble
  else if (idDesc s).op = .OPIMM_ZERO ∧ s.params.opimmUnmatched = .refuse then
    .error (.unmatchedOpImm s.ID.pc s.ID.instr)
  else .ok (.ofDesc (idDesc s) s.ID.pc (rfread s (idDesc s).rs1) (rfread s (idDesc s).rs2))

/-! ## IF (45_pipeline_engine.md R174 to R180) -/

/-- The fetch: performed whenever the IF latch is valid, even when its word is then discarded (R174; D21). -/
def ifFetch (s : State) : Except Fault (Option Word) :=
  if s.IF.nop then .ok none
  else
    match imemRead s.params.imem s.IF.pc with
    | .error f => .error f
    | .ok w => .ok (some w)

/-- The next IF and ID latches: the first row of the table of R180 whose condition holds (R175 to R179). -/
def nextIfId (redirect : Option Word) (fetched : Option Word) (s : State) : IFLatch × IDLatch :=
  match redirect with
  | some target => ({ nop := false, pc := target }, .bubble)
  | none =>
    if stall s then (s.IF, s.ID)
    else if s.IF.nop then (s.IF, .bubble)
    else
      match fetched with
      | none => (s.IF, .bubble)
      | some w =>
        if isHalt w then ({ nop := true, pc := s.IF.pc }, { nop := true, pc := s.IF.pc, instr := w })
        else ({ nop := false, pc := pcPlus4 s.IF.pc }, { nop := false, pc := s.IF.pc, instr := w })

/-! ## The cycle -/

/-- All five latches are bubbles (45_pipeline_engine.md R161). -/
def allNop (s : State) : Bool := s.IF.nop && s.ID.nop && s.EX.nop && s.MEM.nop && s.WB.nop

/-- The state all stages commit together (45_pipeline_engine.md R161, R182). -/
def commit (s : State) (dmem : Memory) (wb : WBLatch) (ex : ExOut) (exLatch : EXLatch) (fetched : Option Word) : State :=
  { params := s.params
    IF := (nextIfId ex.redirect fetched s).1
    ID := (nextIfId ex.redirect fetched s).2
    EX := exLatch
    MEM := ex.mem
    WB := wb
    rf := wbRf s
    dmem
    cycle := s.cycle + 1
    retired := wbRetired s
    halted := allNop s }

/-- One cycle with the fetch and EX's output given: MEM's fault, then ID's refusal, then IF's fault, else the commit
(45_pipeline_engine.md R183; D23). No cycle starts from a halted state (R161; D30). -/
def cycleWith (fetch : Except Fault (Option Word)) (ex : ExOut) (s : State) : Outcome :=
  if s.halted then .refused .halted
  else
    match memStage s with
    | .error f => .fault f
    | .ok (dmem, wb) =>
      match idStage ex.redirect s with
      | .error r => .refused r
      | .ok exLatch =>
        match fetch with
        | .error f => .fault f
        | .ok fetched => .next (commit s dmem wb ex exLatch fetched)

/-- One cycle with EX's output given, the fetch being that of the IF stage. -/
def cycle (ex : ExOut) (s : State) : Outcome := cycleWith (ifFetch s) ex s

/-- `advance` (45_pipeline_engine.md R184): the whole advance over the latches as they stand. -/
def advance (s : State) : Outcome := cycle (exStage s) s

end Sys2Proof.Machine
end

