-- ==== Sys2Proof/Machine/Control.lean ====
section
/-! DEFINITION. The meanings of BEQ, BNE and JAL (43_control_transfer.md R140 to R145), resolved in EX: a redirect makes the
same cycle flush the ID latch and the word being fetched (45_pipeline_engine.md R176, R177). No target is checked (R144). -/

namespace Sys2Proof.Machine

/-- A conditional branch on `cond a b0`: no register, no memory; its ALU result 0 is never used (45_pipeline_engine.md R167,
R168; D31). The comparison uses the forwarded register values, never the immediate (R166). -/
def execBranch (cond : Word → Word → Bool) (rs1 rs2 : Reg) (off : BitVec 13) (s : State) : Outcome :=
  cycle
    { mem :=
        { nop := false, aluResult := 0, storeData := operandB0 s rs2, rd := 0, rdMem := false, wrtMem := false,
          wrtRf := false }
      redirect := if cond (operandA s rs1) (operandB0 s rs2) then some (branchTarget s.EX.pc off) else none } s

/-- BEQ: `if x[rs1] == x[rs2] then pc <- pc + off else pc <- pc + 4` (R141). -/
def execBeq (rs1 rs2 : Reg) (off : BitVec 13) (s : State) : Outcome := execBranch (fun a b => a == b) rs1 rs2 off s

/-- BNE, for every funct3 but 000 (R142). -/
def execBne (_funct3 : BitVec 3) (rs1 rs2 : Reg) (off : BitVec 13) (s : State) : Outcome :=
  execBranch (fun a b => a != b) rs1 rs2 off s

/-- JAL: `x[rd] <- pc + 4; pc <- pc + off`, always taken (R143; D13). It reads no register (30_encoding.md R93). -/
def execJal (rd : Reg) (off : BitVec 21) (s : State) : Outcome :=
  cycle
    { mem :=
        { nop := false, aluResult := pcPlus4 s.EX.pc, storeData := operandB0 s 0, rd, rdMem := false, wrtMem := false,
          wrtRf := true }
      redirect := some (branchTarget s.EX.pc off) } s

end Sys2Proof.Machine
end

