-- ==== Sys2Proof/Machine/Halt.lean ====
section
/-! DEFINITION. The meaning of HALT (44_halt.md R150, R151): the cycle in which IF fetches it. IF stops fetching, the word
enters ID as a bubble, and the instructions ahead of it go on (45_pipeline_engine.md R175); a redirect or a stall in the same
cycle overrides it (R179). HALT never reaches EX as a valid instruction. -/

namespace Sys2Proof.Machine

/-- HALT, fetched as the word `word`; EX works on whatever its latch holds. -/
def execHalt (word : Word) (s : State) : Outcome := cycleWith (.ok (some word)) (exStage s) s

end Sys2Proof.Machine
end

