-- ==== Sys2Proof/Machine/Integer.lean ====
section
/-! DEFINITION. The meanings of the integer instructions (41_integer.md R111 to R121). A meaning is the cycle in which its
instruction is in EX (log entry 4): its operands come through the forwarding multiplexer (45_pipeline_engine.md R165), its
result enters the MEM latch (R167), and MEM and WB pass it to rd (R163, R162). None has flags, exceptions or a redirect. -/

namespace Sys2Proof.Machine

/-- EX of an instruction whose result goes to a register: no memory access, no redirect (45_pipeline_engine.md R167;
30_encoding.md R93). -/
def ExOut.toRegister (rd : Reg) (result b0 : Word) : ExOut :=
  { mem := { nop := false, aluResult := result, storeData := b0, rd, rdMem := false, wrtMem := false, wrtRf := true }
    redirect := none }

/-- A register-register instruction computing `f a b`. -/
def execRegReg (f : Word → Word → Word) (rd rs1 rs2 : Reg) (s : State) : Outcome :=
  cycle (.toRegister rd (f (operandA s rs1) (operandB0 s rs2)) (operandB0 s rs2)) s

/-- A register-immediate instruction computing `f a (sext_12 imm)`; it reads no second register, so its rs2 index is 0
(30_encoding.md R94). -/
def execRegImm (f : Word → Word → Word) (rd rs1 : Reg) (imm : BitVec 12) (s : State) : Outcome :=
  cycle (.toRegister rd (f (operandA s rs1) (sext imm)) (operandB0 s 0)) s

/-- ADD: `x[rd] <- x[rs1] + x[rs2]` modulo 2^32 (R111). -/
def execAdd (rd rs1 rs2 : Reg) (s : State) : Outcome := execRegReg (fun a b => a + b) rd rs1 rs2 s

/-- SUB: `x[rd] <- x[rs1] - x[rs2]` modulo 2^32 (R112). -/
def execSub (rd rs1 rs2 : Reg) (s : State) : Outcome := execRegReg (fun a b => a - b) rd rs1 rs2 s

/-- XOR (R113). -/
def execXor (rd rs1 rs2 : Reg) (s : State) : Outcome := execRegReg (fun a b => a ^^^ b) rd rs1 rs2 s

/-- OR (R114). -/
def execOr (rd rs1 rs2 : Reg) (s : State) : Outcome := execRegReg (fun a b => a ||| b) rd rs1 rs2 s

/-- AND (R115). -/
def execAnd (rd rs1 rs2 : Reg) (s : State) : Outcome := execRegReg (fun a b => a &&& b) rd rs1 rs2 s

/-- OP_ZERO: the defined fallback of R-type, `x[rd] <- 0` (R116; 30_encoding.md R96). The ignored pair has no effect. -/
def execOpZero (_funct7 : BitVec 7) (_funct3 : BitVec 3) (rd rs1 rs2 : Reg) (s : State) : Outcome :=
  execRegReg (fun _ _ => 0) rd rs1 rs2 s

/-- ADDI: `x[rd] <- x[rs1] + sext_12(imm)` modulo 2^32 (R117). -/
def execAddi (rd rs1 : Reg) (imm : BitVec 12) (s : State) : Outcome := execRegImm (fun a b => a + b) rd rs1 imm s

/-- XORI (R118). -/
def execXori (rd rs1 : Reg) (imm : BitVec 12) (s : State) : Outcome := execRegImm (fun a b => a ^^^ b) rd rs1 imm s

/-- ORI (R119). -/
def execOri (rd rs1 : Reg) (imm : BitVec 12) (s : State) : Outcome := execRegImm (fun a b => a ||| b) rd rs1 imm s

/-- ANDI (R120). -/
def execAndi (rd rs1 : Reg) (imm : BitVec 12) (s : State) : Outcome := execRegImm (fun a b => a &&& b) rd rs1 imm s

/-- OPIMM_ZERO: `x[rd] <- 0` (R121; 30_encoding.md R97; D15). Under `OPIMM_UNMATCHED = refuse` it is refused in ID
(`idStage`) and never reaches EX. -/
def execOpimmZero (_funct3 : BitVec 3) (rd rs1 : Reg) (imm : BitVec 12) (s : State) : Outcome :=
  execRegImm (fun _ _ => 0) rd rs1 imm s

end Sys2Proof.Machine
end

