-- ==== Sys2Proof/Machine/LoadStore.lean ====
section
/-! DEFINITION. The meanings of LW and SW (42_load_store.md R130 to R133): the cycle in which the instruction is in EX, which
forms the effective address (and, for SW, takes the store data). The access itself is MEM's, in the next cycle, from the
latch written here (45_pipeline_engine.md R163). Every funct3 is the same instruction (30_encoding.md R98; D14). -/

namespace Sys2Proof.Machine

/-- LW: `x[rd] <- MemRead(x[rs1] + imm, 4)` (R131). -/
def execLw (_funct3 : BitVec 3) (rd rs1 : Reg) (imm : BitVec 12) (s : State) : Outcome :=
  cycle
    { mem :=
        { nop := false, aluResult := effectiveAddress (operandA s rs1) imm, storeData := operandB0 s 0, rd,
          rdMem := true, wrtMem := false, wrtRf := true }
      redirect := none } s

/-- SW: `MemWrite(x[rs1] + imm, 4, x[rs2])`, no register written (R132). -/
def execSw (_funct3 : BitVec 3) (rs1 rs2 : Reg) (imm : BitVec 12) (s : State) : Outcome :=
  cycle
    { mem :=
        { nop := false, aluResult := effectiveAddress (operandA s rs1) imm, storeData := operandB0 s rs2, rd := 0,
          rdMem := false, wrtMem := true, wrtRf := false }
      redirect := none } s

end Sys2Proof.Machine
end

