-- ==== Sys2Proof/Machine/Dispatch.lean ====
section
/-! DEFINITION. Every instruction's meaning: one arm per constructor of Instr. -/

namespace Sys2Proof.Machine

def exec (i : Instr) (s : State) : Host.Outcome State Fault Refusal :=
  match i with
  | .add rd rs1 rs2 => Sys2Proof.Machine.execAdd rd rs1 rs2 s
  | .sub rd rs1 rs2 => Sys2Proof.Machine.execSub rd rs1 rs2 s
  | .xor rd rs1 rs2 => Sys2Proof.Machine.execXor rd rs1 rs2 s
  | .or rd rs1 rs2 => Sys2Proof.Machine.execOr rd rs1 rs2 s
  | .and rd rs1 rs2 => Sys2Proof.Machine.execAnd rd rs1 rs2 s
  | .opZero funct7 funct3 rd rs1 rs2 => Sys2Proof.Machine.execOpZero funct7 funct3 rd rs1 rs2 s
  | .addi rd rs1 imm => Sys2Proof.Machine.execAddi rd rs1 imm s
  | .xori rd rs1 imm => Sys2Proof.Machine.execXori rd rs1 imm s
  | .ori rd rs1 imm => Sys2Proof.Machine.execOri rd rs1 imm s
  | .andi rd rs1 imm => Sys2Proof.Machine.execAndi rd rs1 imm s
  | .opimmZero funct3 rd rs1 imm => Sys2Proof.Machine.execOpimmZero funct3 rd rs1 imm s
  | .lw funct3 rd rs1 imm => Sys2Proof.Machine.execLw funct3 rd rs1 imm s
  | .sw funct3 rs1 rs2 imm => Sys2Proof.Machine.execSw funct3 rs1 rs2 imm s
  | .beq rs1 rs2 off => Sys2Proof.Machine.execBeq rs1 rs2 off s
  | .bne funct3 rs1 rs2 off => Sys2Proof.Machine.execBne funct3 rs1 rs2 off s
  | .jal rd off => Sys2Proof.Machine.execJal rd off s
  | .halt word => Sys2Proof.Machine.execHalt word s

end Sys2Proof.Machine
end

