-- ==== Sys2Proof/Machine/Issue.lean ====
section
/-! DEFINITION. Which instruction a cycle runs: the one in EX; in a cycle whose EX latch is a bubble, a HALT that IF fetches
(log entry 4). And how an instruction is put where the very next cycle runs it (log entry 6). -/

namespace Sys2Proof.Machine

/-- The descriptor fields of an EX latch (10_state.md R30). -/
def EXLatch.desc (l : EXLatch) : Desc :=
  { op := l.op, rs1 := l.rs1, rs2 := l.rs2, rd := l.rd, imm := l.imm, isIType := l.isIType, rdMem := l.rdMem,
    wrtMem := l.wrtMem, wrtRf := l.wrtRf }

/-- The instruction whose kind and operands the latch names. The latch keeps no ignored field (10_state.md R30), so the
canonical one stands for it (log entry 5): `exec` does not look at ignored fields. -/
def EXLatch.named (l : EXLatch) : Instr :=
  match l.op with
  | .ADD => .add l.rd l.rs1 l.rs2
  | .SUB => .sub l.rd l.rs1 l.rs2
  | .XOR => .xor l.rd l.rs1 l.rs2
  | .OR => .or l.rd l.rs1 l.rs2
  | .AND => .and l.rd l.rs1 l.rs2
  | .OP_ZERO => .opZero 0b0000000 0b001 l.rd l.rs1 l.rs2
  | .ADDI => .addi l.rd l.rs1 (l.imm.extractLsb' 0 12)
  | .XORI => .xori l.rd l.rs1 (l.imm.extractLsb' 0 12)
  | .ORI => .ori l.rd l.rs1 (l.imm.extractLsb' 0 12)
  | .ANDI => .andi l.rd l.rs1 (l.imm.extractLsb' 0 12)
  | .OPIMM_ZERO => .opimmZero 0b001 l.rd l.rs1 (l.imm.extractLsb' 0 12)
  | .LW => .lw 0b010 l.rd l.rs1 (l.imm.extractLsb' 0 12)
  | .SW => .sw 0b010 l.rs1 l.rs2 (l.imm.extractLsb' 0 12)
  | .BEQ => .beq l.rs1 l.rs2 (l.imm.extractLsb' 0 13)
  | .BNE => .bne 0b001 l.rs1 l.rs2 (l.imm.extractLsb' 0 13)
  | .JAL => .jal l.rd (l.imm.extractLsb' 0 21)
  | .HALT => .halt haltWord

/-- The EX latch holds the instruction `i`: it is valid, its descriptor is `i`'s, and `i` is not HALT, which EX never holds
(10_state.md R30; 44_halt.md R150). -/
abbrev EXLatch.holds (l : EXLatch) (i : Instr) : Prop := l.nop = false ∧ l.desc = i.desc ∧ l.op ≠ .HALT

/-- The instruction in EX. None for a bubble, and none for a latch whose fields are those of no instruction, which no run
from reset reaches (log entry 5). -/
def EXLatch.instr? (l : EXLatch) : Option Instr := if l.holds l.named then some l.named else none

/-- The HALT word IF fetches in this cycle, if it fetches one (45_pipeline_engine.md R175). -/
def haltFetched (s : State) : Option Word :=
  match ifFetch s with
  | .ok (some w) => if isHalt w then some w else none
  | _ => none

/-- The instruction this cycle runs. -/
def running (s : State) : Option Instr :=
  if s.EX.nop then (haltFetched s).map .halt else s.EX.instr?

/-! ## Placing an instruction -/

/-- The state in which `word` lies in IMEM at the fetch PC and has just been fetched (45_pipeline_engine.md R180, with the
stages ahead of ID empty). -/
def placeFetched (word : Word) (s : State) : State :=
  let pc := s.IF.pc
  let imem := (s.params.imem.growTo (min (pc.toNat + 12) Config.maxMemorySize)).writeWord pc word
  { s with
    params := { s.params with imem }
    IF := { nop := false, pc := pcPlus4 pc }
    ID := { nop := false, pc, instr := word }
    EX := .bubble
    halted := false }

/-- `word` moved on from ID to EX, its source registers read, while IF fetches the word after it (45_pipeline_engine.md R173,
R180). -/
def placeDecoded (word : Word) (s : State) : State :=
  let f := placeFetched word s
  let next := nextIfId none (some (f.params.imem.readWord f.IF.pc)) { f with ID := .bubble }
  { f with
    IF := next.1
    ID := next.2
    EX := .ofDesc (descOf word) s.IF.pc (readReg s.rf (descOf word).rs1) (readReg s.rf (descOf word).rs2) }

/-- `word` in IMEM at the fetch PC, still to be fetched. -/
def placeUnfetched (word : Word) (s : State) : State :=
  { placeFetched word s with IF := { nop := false, pc := s.IF.pc }, ID := .bubble }

/-- `word` where the very next cycle runs it: a HALT at the fetch PC, a word ID refuses in ID, any other in EX. -/
def placeNext (word : Word) (s : State) : State :=
  if isHalt word then placeUnfetched word s
  else if (descOf word).op = .OPIMM_ZERO ∧ s.params.opimmUnmatched = .refuse then placeFetched word s
  else placeDecoded word s

end Sys2Proof.Machine
end

