-- ==== Sys2Proof/Machine/Step.lean ====
section
/-! DEFINITION. The step is one cycle, "one application of the advance function" (00_scope.md R15; 45_pipeline_engine.md R160):
the meaning of the instruction the cycle runs, which does the whole cycle; the advance of R184 when it runs none. -/

namespace Sys2Proof.Machine

def step (s : State) : Host.Outcome State Fault Refusal :=
  match running s with
  | some i => exec i s
  | none => advance s

/-- `s` with an instruction stored where the very next step runs it (log entry 6). -/
def State.withFetchWord (s : State) (nbits w : Nat) : State := placeNext (tableWord nbits w) s

end Sys2Proof.Machine
end

