-- ==== Sys2Proof/Machine/Ports.lean ====
section
/-! DEFINITION. The block's interface (45_pipeline_engine.md R186; D33): what each port carries in a cycle, as functions of the
current state, and the host's metrics (10_state.md R35; 70_reset_and_hazards.md R252). The inputs `advance` and `reset` are
`step` and `State.assertReset`. -/

namespace Sys2Proof.Machine

/-- The ports of R186 in one cycle. A port that makes no access carries none (log entry 20). -/
structure Ports where
  /-- `imem_addr`: the fetch address. -/
  imemAddr : Option Word
  /-- `imem_rdata`: the word fetched. -/
  imemRdata : Option Word
  /-- `rf_raddr1` and `rf_raddr2`: the registers ID reads. -/
  rfRead : Option (Reg × Reg)
  /-- `rf_rdata1` and `rf_rdata2`: they see the write of the same cycle (R171). -/
  rfRdata : Option (Word × Word)
  /-- `rf_we`, `rf_waddr` and `rf_wdata`. -/
  rfWrite : Option (Reg × Word)
  /-- `dmem_re` and `dmem_addr`. -/
  dmemRead : Option Word
  /-- `dmem_rdata`: the word loaded. -/
  dmemRdata : Option Word
  /-- `dmem_we`, `dmem_addr` and `dmem_wdata`. -/
  dmemWrite : Option (Word × Word)
  halted : Bool
  cycle : Nat
  retired : Nat
  /-- `fault`: the reason this cycle's advance gives instead of a next state (R183). -/
  fault : Option Fault
  deriving DecidableEq, Repr

/-- The ports of the cycle that starts from `s`. The enables are not gated by the outcome: where this cycle's advance faults or
refuses, `rfWrite` and `dmemWrite` still carry what WB and MEM ask for, although nothing is committed (R183), and the read ports
the addresses asked for, a faulting read returning no word. DESIGN CHOICE (log entry 20): no rule says whether the enables are
gated. -/
def ports (s : State) : Ports :=
  { imemAddr := if s.IF.nop then none else some s.IF.pc
    imemRdata :=
      match ifFetch s with
      | .ok w => w
      | .error _ => none
    rfRead := if s.ID.nop then none else some ((idDesc s).rs1, (idDesc s).rs2)
    rfRdata := if s.ID.nop then none else some (rfread s (idDesc s).rs1, rfread s (idDesc s).rs2)
    rfWrite := if s.WB.nop = false ∧ s.WB.wrtRf = true ∧ s.WB.rd ≠ 0 then some (s.WB.rd, s.WB.wdata) else none
    dmemRead := if s.MEM.nop = false ∧ s.MEM.rdMem = true then some s.MEM.aluResult else none
    dmemRdata :=
      if s.MEM.nop = false ∧ s.MEM.rdMem = true then
        match memRead s.dmem s.MEM.aluResult with
        | .ok w => some w
        | .error _ => none
      else none
    dmemWrite :=
      if s.MEM.nop = false ∧ s.MEM.wrtMem = true then some (s.MEM.aluResult, s.MEM.storeData) else none
    halted := s.halted
    cycle := s.cycle
    retired := s.retired
    fault :=
      match advance s with
      | .fault f => some f
      | .next _ | .refused _ => none }

/-- The register file after the register write port's write. -/
def Ports.writeRf (p : Ports) (rf : RegFile) : RegFile :=
  match p.rfWrite with
  | some (r, v) => writeReg rf r v
  | none => rf

/-- The data memory after the data write port's write. -/
def Ports.writeDmem (p : Ports) (dmem : Memory) : Memory :=
  match p.dmemWrite with
  | some (a, v) => dmem.writeWord a v
  | none => dmem

/-- CPI = cycle / retired, undefined when nothing retired (R193; D26). -/
def cpi? (s : State) : Option Rat := if s.retired = 0 then none else some ((s.cycle : Rat) / (s.retired : Rat))

/-- IPC = retired / cycle; none when no cycle has been counted (log entry 18). -/
def ipc? (s : State) : Option Rat := if s.cycle = 0 then none else some ((s.retired : Rat) / (s.cycle : Rat))

end Sys2Proof.Machine
end

