-- ==== Sys2Proof/Machine/Reference.lean ====
section
/-! DEFINITION. The reference semantics (45_pipeline_engine.md R199): the single-cycle core, the correctness oracle, held as
the architectural effect of each instruction on registers, data memory and PC (00_scope.md R3). It is not the machine of this
model; `step` is. -/

namespace Sys2Proof.Machine

/-- Architectural state: "the register file, the data memory and, in the reference, the PC" (00_scope.md R15). -/
structure ArchState where
  pc : Word
  rf : RegFile
  dmem : Memory
  deriving DecidableEq, Repr

/-- What one reference step answers. -/
inductive RefOutcome where
  /-- The decoded instruction is HALT: the reference terminates, its state as it was. -/
  | halt
  | next (a : ArchState)
  | fault (f : Fault)
  deriving DecidableEq, Repr

/-- The register result of a reference step: the loaded word for a load, the link for JAL, else the ALU's. -/
def refResult (d : Desc) (a : ArchState) : Except Fault Word :=
  let b := operandB d.isIType d.imm (readReg a.rf d.rs2)
  let res := if d.op = .JAL then pcPlus4 a.pc else alu d.op (readReg a.rf d.rs1) b
  if d.rdMem then memRead a.dmem res else .ok res

/-- The data memory after a reference step. -/
def refDmem (d : Desc) (a : ArchState) : Except Fault Memory :=
  if d.wrtMem then
    memWrite a.dmem (alu d.op (readReg a.rf d.rs1) (operandB d.isIType d.imm (readReg a.rf d.rs2))) (readReg a.rf d.rs2)
  else .ok a.dmem

/-- The effect of an instruction's descriptor on architectural state (R199). -/
def refExec (d : Desc) (a : ArchState) : RefOutcome :=
  match refResult d a, refDmem d a with
  | .error f, _ => .fault f
  | .ok _, .error f => .fault f
  | .ok res, .ok dmem =>
    .next
      { pc := if taken d.op (readReg a.rf d.rs1) (readReg a.rf d.rs2) then a.pc + d.imm else pcPlus4 a.pc
        rf := if d.wrtRf then writeReg a.rf d.rd res else a.rf
        dmem }

/-- `ref_step` (R199). -/
def refStep (imem : Memory) (a : ArchState) : RefOutcome :=
  match imemRead imem a.pc with
  | .error f => .fault f
  | .ok w => if isHalt w then .halt else refExec (descOf w) a

/-- `n` reference steps, none of them a HALT or a fault. -/
def refSteps (imem : Memory) : Nat → ArchState → Option ArchState
  | 0, a => some a
  | n + 1, a =>
    match refStep imem a with
    | .next a' => refSteps imem n a'
    | .halt => none
    | .fault _ => none

/-- A whole run of the reference, of at most `fuel` cycles: its final state and its cycles, one an instruction, the HALT
included (R199; D22). None if it does not halt within them. -/
def refRun (imem : Memory) : Nat → ArchState → Option (ArchState × Nat)
  | 0, _ => none
  | fuel + 1, a =>
    match refStep imem a with
    | .halt => some (a, 1)
    | .next a' => (refRun imem fuel a').map fun (final, cycles) => (final, cycles + 1)
    | .fault _ => none

/-- The reference starts at pc 0 with the reset registers and data memory (R199). -/
def ArchState.reset (params : Params) : ArchState := { pc := Config.resetVector, rf := .reset, dmem := params.dmemInit }

end Sys2Proof.Machine
end

