-- ==== Sys2Proof/Safety.lean ====
section
/-! DEFINITION. The terms claims are stated in: when a cycle gives a next state, when a run is over, what the registers, the
data memory and the PC are IN PROGRAM ORDER while results are still in the latches, and the invariant of reachable states. -/

namespace Sys2Proof.Machine

/-! ## When a cycle gives a next state (45_pipeline_engine.md R183) -/

/-- MEM's access, if it makes one, lies inside DMEM. -/
abbrev MemSafe (s : State) : Prop :=
  s.MEM.nop = false → (s.MEM.rdMem = true ∨ s.MEM.wrtMem = true) → s.dmem.inRange s.MEM.aluResult

/-- The fetch, if IF makes one, lies inside IMEM. -/
abbrev FetchSafe (s : State) : Prop := s.IF.nop = false → s.params.imem.inRange s.IF.pc

/-- ID does not refuse: the word in ID enters EX only if it is no unmatched OP-IMM word or the parameter is `zero`. -/
abbrev IdSafe (redirect : Option Word) (s : State) : Prop :=
  redirect = none → s.ID.nop = false → stall s = false → s.params.opimmUnmatched = .refuse → (idDesc s).op ≠ .OPIMM_ZERO

/-- The state from which an advance gives a next state: not halted, every access in range, nothing refused. -/
abbrev CycleSafe (s : State) : Prop :=
  s.halted = false ∧ MemSafe s ∧ IdSafe (exStage s).redirect s ∧ FetchSafe s

/-! ## Program order

The instructions in MEM and WB are older than the one in EX and are never cancelled (45_pipeline_engine.md R167), so the
registers and the data memory "as of" the instruction in EX are those with the results in WB and MEM applied. -/

/-- The value the MEM latch's instruction will write: the word it loads, else its EX result (R163). -/
def memValue (s : State) : Word := if s.MEM.rdMem then s.dmem.readWord s.MEM.aluResult else s.MEM.aluResult

/-- The register file in program order before the instruction in EX. -/
def progRf (s : State) : RegFile :=
  if s.MEM.nop = false ∧ s.MEM.wrtRf = true then writeReg (wbRf s) s.MEM.rd (memValue s) else wbRf s

/-- A register in program order before the instruction in EX. -/
def progReg (s : State) (r : Reg) : Word := readReg (progRf s) r

/-- The data memory in program order before the instruction in EX. -/
def progDmem (s : State) : Memory :=
  if s.MEM.nop = false ∧ s.MEM.wrtMem = true then s.dmem.writeWord s.MEM.aluResult s.MEM.storeData else s.dmem

/-- A byte of data memory in program order before the instruction in EX. -/
def progByte (s : State) (a : Nat) : Byte := (progDmem s).readByte a

/-- The PC in program order: the address of the oldest instruction that has not been in EX yet, or is in it. -/
def progPc (s : State) : Word :=
  if s.EX.nop = false then s.EX.pc else if s.ID.nop = false then s.ID.pc else s.IF.pc

/-- The architectural state before the instruction in EX. -/
def progState (s : State) : ArchState := { pc := progPc s, rf := progRf s, dmem := progDmem s }

/-- The instructions in MEM and WB: executed, not yet counted in `retired`. -/
def inFlight (s : State) : Nat := (if s.MEM.nop then 0 else 1) + if s.WB.nop then 0 else 1

/-! ## The invariant of reachable states -/

/-- r0 holds 0 (10_state.md R20; 45_pipeline_engine.md R189 ii). -/
abbrev RegZero (s : State) : Prop := s.rf[0] = 0

/-- The memories keep their canonical form, and the data memory its size. -/
abbrev MemoriesWf (s : State) : Prop :=
  s.params.imem.wf = true ∧ s.params.dmemInit.wf = true ∧ s.dmem.wf = true ∧ s.dmem.size = s.params.dmemInit.size

/-- The IMEM word at `pc` is an instruction that is not HALT. -/
abbrev FetchedInstr (s : State) (pc : Word) : Prop :=
  s.params.imem.inRange pc ∧ isHalt (s.params.imem.readWord pc) = false

/-- A valid ID latch holds the IMEM word at its own pc (10_state.md R28), never a HALT (45_pipeline_engine.md R175). -/
abbrev IdFetched (s : State) : Prop :=
  s.ID.nop = false → FetchedInstr s s.ID.pc ∧ s.ID.instr = s.params.imem.readWord s.ID.pc

/-- A valid EX latch holds the decoded IMEM word at its own pc (10_state.md R30). -/
abbrev ExDecoded (s : State) : Prop :=
  s.EX.nop = false → FetchedInstr s s.EX.pc ∧ s.EX.desc = descOf (s.params.imem.readWord s.EX.pc)

/-- The operand values a valid EX latch carries are those now in the register file: ID's read saw WB's write of the same
cycle (45_pipeline_engine.md R171). -/
abbrev ExOperands (s : State) : Prop :=
  s.EX.nop = false → s.EX.rv1 = readReg s.rf s.EX.rs1 ∧ s.EX.rv2 = readReg s.rf s.EX.rs2

/-- No load in MEM feeds EX (45_pipeline_engine.md R169). -/
abbrev NoLoadInMemFeedsEx (s : State) : Prop :=
  ¬(s.EX.nop = false ∧ s.MEM.nop = false ∧ s.MEM.rdMem = true ∧ s.MEM.rd ≠ 0 ∧
    (s.MEM.rd = s.EX.rs1 ∨ s.MEM.rd = s.EX.rs2))

/-- Fetching has stopped only at a HALT, with nothing valid behind it in ID (45_pipeline_engine.md R175, R189 i). -/
abbrev StoppedAtHalt (s : State) : Prop :=
  s.IF.nop = true → s.ID.nop = true ∧ s.params.imem.inRange s.IF.pc ∧ isHalt (s.params.imem.readWord s.IF.pc) = true

/-- The PCs of IF, ID and EX follow one another (10_state.md R24). -/
abbrev PcsInSequence (s : State) : Prop :=
  (s.ID.nop = false → s.IF.pc = pcPlus4 s.ID.pc) ∧
    (s.EX.nop = false → s.ID.nop = false → s.ID.pc = pcPlus4 s.EX.pc) ∧
    (s.EX.nop = false → s.ID.nop = true → s.IF.pc = pcPlus4 s.EX.pc)

/-- No instruction in MEM both loads and stores (30_encoding.md R93). -/
abbrev MemOneAccess (s : State) : Prop := ¬(s.MEM.rdMem = true ∧ s.MEM.wrtMem = true)

/-- A halted machine is empty (10_state.md R36). -/
abbrev HaltedEmpty (s : State) : Prop := s.halted = true → allNop s = true

/-- The invariant of reachable states. -/
abbrev Invariant (s : State) : Prop :=
  RegZero s ∧ MemoriesWf s ∧ IdFetched s ∧ ExDecoded s ∧ ExOperands s ∧ NoLoadInMemFeedsEx s ∧ StoppedAtHalt s ∧
    PcsInSequence s ∧ MemOneAccess s ∧ HaltedEmpty s

/-- The parameters of a run are well formed. -/
abbrev ParamsWf (p : Params) : Prop := p.imem.wf = true ∧ p.dmemInit.wf = true

/-! ## The operands are those of program order -/

/-- What makes the operands EX uses those of program order: r0, the carried values, and no load in MEM feeding EX. -/
abbrev OperandsCurrent (s : State) : Prop := RegZero s ∧ ExOperands s ∧ NoLoadInMemFeedsEx s

/-- The EX latch holds `i`, whose operands are current and whose successor is the next word, and this cycle gives a next
state. -/
abbrev Executes (i : Instr) (s : State) : Prop := s.EX.holds i ∧ OperandsCurrent s ∧ PcsInSequence s ∧ CycleSafe s

/-! ## Runs -/

/-- `n` steps of the machine, stopping at the first fault or refusal. -/
def run : Nat → State → Outcome
  | 0, s => .next s
  | n + 1, s =>
    match step s with
    | .next t => run n t
    | .fault f => .fault f
    | .refused r => .refused r

/-! ## What an instruction leaves, in program order -/

/-- Every register is as before. -/
abbrev RegistersKept (s t : State) : Prop := ∀ r, progReg t r = progReg s r

/-- Register `rd` holds `v` (a write of r0 is discarded) and every other register is as before. -/
abbrev RegisterSet (rd : Reg) (v : Word) (s t : State) : Prop :=
  ∀ r, progReg t r = if r = rd ∧ r ≠ 0 then v else progReg s r

/-- Every byte of data memory is as before. -/
abbrev DataKept (s t : State) : Prop := ∀ a, progByte t a = progByte s a

/-- The four bytes from `ea` up hold `v`, most significant first, and every other byte is as before. -/
abbrev DataSet (ea v : Word) (s t : State) : Prop :=
  ∀ a, progByte t a = if ea.toNat ≤ a ∧ a < ea.toNat + 4 then byteOfWord v (a - ea.toNat) else progByte s a

/-- The MEM latch carries a result for register `rd` and makes no memory access. -/
abbrev CarriesResult (rd : Reg) (v : Word) (t : State) : Prop :=
  t.MEM.nop = false ∧ t.MEM.aluResult = v ∧ t.MEM.rd = rd ∧ t.MEM.wrtRf = true ∧ t.MEM.rdMem = false ∧ t.MEM.wrtMem = false

/-- `i` completes: EX hands `v` on for `rd`; in program order `rd` holds `v`, every other register and every byte of data
memory is as before, and the next instruction is at pc + 4. -/
abbrev CompletesWith (i : Instr) (rd : Reg) (v : Word) (s : State) : Prop :=
  ∃ t, exec i s = .next t ∧ CarriesResult rd v t ∧ RegisterSet rd v s t ∧ DataKept s t ∧ progPc t = pcPlus4 s.EX.pc

/-- The instruction in MEM goes through MEM and WB as a valid one with no effect, and WB counts it. -/
abbrev PassesWithoutEffect (t : State) : Prop :=
  t.MEM.nop = false ∧ t.MEM.wrtRf = false ∧ t.MEM.rdMem = false ∧ t.MEM.wrtMem = false ∧
    ∀ u, step t = .next u → u.dmem = t.dmem ∧ u.WB.nop = false ∧
      ∀ v, step u = .next v → v.rf = u.rf ∧ v.retired = u.retired + 1

/-- The branch `i` completes: when `cond` holds, IF, ID and EX of the next state are the redirect to `target`, otherwise the
next instruction is at pc + 4; no register and no byte changes either way. -/
abbrev Branches (i : Instr) (cond : Prop) (target : Word) (s : State) : Prop :=
  ∃ t, exec i s = .next t ∧ RegistersKept s t ∧ DataKept s t ∧ PassesWithoutEffect t ∧
    (cond → t.IF = { nop := false, pc := target } ∧ t.ID = .bubble ∧ t.EX = .bubble ∧ progPc t = target) ∧
    (¬cond → progPc t = pcPlus4 s.EX.pc)

/-! ## Bubbles (10_state.md R33, R34) -/

/-- A state with every unobservable field at its canonical value: the fields of a bubble, and the pc of a stopped IF. -/
def forgetBubbles (s : State) : State :=
  { s with
    IF := if s.IF.nop then { nop := true, pc := 0 } else s.IF
    ID := if s.ID.nop then .bubble else s.ID
    EX := if s.EX.nop then .bubble else s.EX
    MEM := if s.MEM.nop then .bubble else s.MEM
    WB := if s.WB.nop then .bubble else s.WB }

/-- An outcome with the bubbles of its next state forgotten. -/
def forgetBubblesOf : Outcome → Outcome
  | .next s => .next (forgetBubbles s)
  | .fault f => .fault f
  | .refused r => .refused r

/-! ## The end of a run (45_pipeline_engine.md R185) -/

/-- The one final state of a run: halted (R185 i). -/
abbrev Final (s : State) : Prop := s.halted = true

end Sys2Proof.Machine
end

