-- ==== Sys2Proof/Certificates/Slice0/Obligations.lean ====
section
/-! DEFINITION. The statements for the provers. Each formalises rules of spec/ or a consequence of them, named in its
docstring; OBLIGATIONS.json lists them. `step` is one cycle; `exec i` is the cycle in which `i` is in EX (for HALT: is
fetched). `progReg`, `progByte` and `progPc` are registers, data memory and PC in program order (Sys2Proof/Safety.lean); that
they are what the machine commits is `ProgramOrderStateIsCommitted`. -/

open Sys2Proof Sys2Proof.Machine

/-! ## Encoding -/

/-- The decoder reads back the bytes of every well-formed instruction, every operand at every value, whatever follows them
(30_encoding.md R80, R82 to R86, R91). -/
def Obligations.DecodeReadsBackEncodedBytes : Prop :=
  ∀ (i : Instr) (rest : List Byte), i.wf = true → decode (encodeBytes i ++ rest) = .ok (i, rest)

/-- Every word is the encoding of the well-formed instruction it decodes to: the decoder drops no bit and admits no
ill-formed term (30_encoding.md R91, R95). -/
def Obligations.EveryWordEncodesItsDecoding : Prop :=
  ∀ w : Word, (decodeWord w).wf = true ∧ encode (decodeWord w) = w

/-- "Exactly one row matches every 32-bit word" (INDEX.md), and it is the row of the kind the decoder gives
(opcode_table.json; 30_encoding.md R92). -/
def Obligations.OneTableRowCoversEachWord : Prop :=
  ∀ w : Word, (opcodeTable.filter fun row => row.covers w).map TableRow.op = [(descOf w).op]

/-- The four immediates, bit by bit, with their ranges, of the operations that use them (30_encoding.md R87 to R90). -/
def Obligations.ImmediatesBitByBit : Prop :=
  ∀ w : Word,
    ((opcodeOf w = 0b0010011 ∨ opcodeOf w = 0b0000011) →
      (∀ j < 32, (descOf w).imm.getLsbD j = if j < 11 then w.getLsbD (j + 20) else w.getLsbD 31) ∧
        -2048 ≤ (descOf w).imm.toInt ∧ (descOf w).imm.toInt ≤ 2047) ∧
    (opcodeOf w = 0b0100011 →
      (∀ j < 32, (descOf w).imm.getLsbD j =
        if j < 5 then w.getLsbD (j + 7) else if j < 11 then w.getLsbD (j + 20) else w.getLsbD 31) ∧
        -2048 ≤ (descOf w).imm.toInt ∧ (descOf w).imm.toInt ≤ 2047) ∧
    (opcodeOf w = 0b1100011 →
      (∀ j < 32, (descOf w).imm.getLsbD j =
        if j = 0 then false else if j < 5 then w.getLsbD (j + 7) else if j < 11 then w.getLsbD (j + 20)
        else if j = 11 then w.getLsbD 7 else w.getLsbD 31) ∧
        -4096 ≤ (descOf w).imm.toInt ∧ (descOf w).imm.toInt ≤ 4094) ∧
    (opcodeOf w = 0b1101111 →
      (∀ j < 32, (descOf w).imm.getLsbD j =
        if j = 0 then false else if j < 11 then w.getLsbD (j + 20) else if j = 11 then w.getLsbD 20
        else if j < 20 then w.getLsbD j else w.getLsbD 31) ∧
        -1048576 ≤ (descOf w).imm.toInt ∧ (descOf w).imm.toInt ≤ 1048574)

/-- The control flags of a decoded word are those the table of 30_encoding.md R93 gives its kind, and a source index is the
word's field when the kind reads that source and 0 when it does not (R94; D16 sets the 0, D18 the flag `is_I_type`). -/
def Obligations.DescriptorFollowsControlTable : Prop :=
  ∀ w : Word,
    (descOf w).isIType = (descOf w).op.isIType ∧ (descOf w).rdMem = (descOf w).op.rdMem ∧
    (descOf w).wrtMem = (descOf w).op.wrtMem ∧ (descOf w).wrtRf = (descOf w).op.wrtRf ∧
    (descOf w).rs1 = (if (descOf w).op.readsRs1 then rs1Of w else 0) ∧
    (descOf w).rs2 = (if (descOf w).op.readsRs2 then rs2Of w else 0) ∧
    (descOf w).rd = (if (descOf w).op.wrtRf then rdOf w else 0)

/-- A word is HALT exactly when its opcode is none of the six; the opcodes of LUI, AUIPC, JALR, FENCE and SYSTEM, the
all-zero and the all-ones word are among them (30_encoding.md R95). -/
def Obligations.HaltIsEveryOtherOpcode : Prop :=
  (∀ w : Word, isHalt w = true ↔ opcodeOf w ∉
    [0b0110011#7, 0b0010011#7, 0b0000011#7, 0b0100011#7, 0b1100011#7, 0b1101111#7]) ∧
  (∀ w : Word, opcodeOf w ∈ [0b0110111#7, 0b0010111#7, 0b1100111#7, 0b0001111#7, 0b1110011#7] → decodeWord w = .halt w) ∧
  decodeWord 0x00000000 = .halt 0x00000000 ∧ decodeWord 0xFFFFFFFF = .halt 0xFFFFFFFF

/-- Words of 95_test_vectors.md section 2.1, one or more of each family, decode to their instructions. -/
def Obligations.SampleWordsDecode : Prop :=
  decodeWord 0x002081B3 = .add 3 1 2 ∧ decodeWord 0x407302B3 = .sub 5 6 7 ∧
  decodeWord 0x02108133 = .opZero 0b0000001 0b000 2 1 1 ∧
  decodeWord 0x80000093 = .addi 1 0 0x800 ∧ decodeWord 0x00309293 = .opimmZero 0b001 5 1 3 ∧
  decodeWord 0xFFC0A203 = .lw 0b010 4 1 0xFFC ∧ decodeWord 0xFE112C23 = .sw 0b010 2 1 0xFF8 ∧
  decodeWord 0x000000E3 = .beq 0 0 0x800 ∧ decodeWord 0xFE009CE3 = .bne 0b001 1 0 0x1FF8 ∧
  decodeWord 0x0010006F = .jal 0 0x800 ∧ decodeWord 0x00000073 = .halt 0x00000073

/-- "if bit `bit` of val is 0 the result is val; if it is 1 the result is `val - 2^(bit+1)`" (00_scope.md R10). -/
def Obligations.SignExtensionValue : Prop :=
  ∀ (n : Nat) (v : BitVec n), 0 < n → n ≤ 32 →
    (v.getLsbD (n - 1) = false → (sext v).toInt = v.toNat) ∧
    (v.getLsbD (n - 1) = true → (sext v).toInt = (v.toNat : Int) - 2 ^ n)

/-! ## The step -/

/-- At every state the step is the whole advance of R184, evaluated over the latches as they stand: the meanings of the
instructions together are the EX stage of R164 to R168 (45_pipeline_engine.md R184). -/
def Obligations.StepIsTheWholeAdvance : Prop := ∀ s : State, step s = advance s

/-- A step runs the instruction in EX, the one whose word stands in IMEM at EX's own pc (10_state.md R24, R30); a step whose
fetched word is a HALT runs that HALT (45_pipeline_engine.md R175). What the step adds around a meaning is nothing: a meaning
does the whole cycle (log entry 4, the model's choice). -/
def Obligations.StepRunsTheDecodedInstruction : Prop :=
  (∀ (s : State) (i : Instr), s.EX.holds i → step s = exec i s) ∧
  (∀ s : State, Invariant s → s.EX.nop = false → step s = exec (decodeWord (s.params.imem.readWord s.EX.pc)) s) ∧
  (∀ (s : State) (w : Word), s.IF.nop = false → s.params.imem.inRange s.IF.pc → s.params.imem.readWord s.IF.pc = w →
    isHalt w = true → step s = exec (.halt w) s)

/-- The outcome of a step from a state that is not halted: MEM's fault, else ID's refusal, else IF's fault, else a next state, so
the oldest instruction's outcome is reported and nothing else stops the machine (45_pipeline_engine.md R183; the order is D23).
The first clause, a halted state answers the refusal `halted`, is the model's choice (log entry 7, DEDUCED): R161 says only that
no advance is defined there. -/
def Obligations.StepOutcomeByAge : Prop :=
  ∀ s : State,
    (s.halted = true → step s = .refused .halted) ∧
    (s.halted = false → ¬MemSafe s → step s = .fault (.dataOutOfRange s.MEM.aluResult)) ∧
    (s.halted = false → MemSafe s → ¬IdSafe (exStage s).redirect s →
      step s = .refused (.unmatchedOpImm s.ID.pc s.ID.instr)) ∧
    (s.halted = false → MemSafe s → IdSafe (exStage s).redirect s → ¬FetchSafe s →
      step s = .fault (.fetchOutOfRange s.IF.pc)) ∧
    (CycleSafe s → ∃ t, step s = .next t)

/-! ## Results of the instructions -/

/-- ADD, SUB, XOR, OR, AND: their words decode to them, and in EX each completes with its result (41_integer.md R111 to R115).
So does OP_ZERO, every other (funct7, funct3) pair, with 0 (its effect in R116). -/
def Obligations.RegisterRegisterResults : Prop :=
  ∀ (s : State) (rd rs1 rs2 : Reg) (f7 : BitVec 7) (f3 : BitVec 3),
    decodeWord (0b0000000#7 ++ rs2 ++ rs1 ++ 0b000#3 ++ rd ++ 0b0110011#7) = .add rd rs1 rs2 ∧
    decodeWord (0b0100000#7 ++ rs2 ++ rs1 ++ 0b000#3 ++ rd ++ 0b0110011#7) = .sub rd rs1 rs2 ∧
    decodeWord (0b0000000#7 ++ rs2 ++ rs1 ++ 0b100#3 ++ rd ++ 0b0110011#7) = .xor rd rs1 rs2 ∧
    decodeWord (0b0000000#7 ++ rs2 ++ rs1 ++ 0b110#3 ++ rd ++ 0b0110011#7) = .or rd rs1 rs2 ∧
    decodeWord (0b0000000#7 ++ rs2 ++ rs1 ++ 0b111#3 ++ rd ++ 0b0110011#7) = .and rd rs1 rs2 ∧
    ((f7, f3) ∉ [(0b0000000#7, 0b000#3), (0b0100000#7, 0b000#3), (0b0000000#7, 0b100#3), (0b0000000#7, 0b110#3),
        (0b0000000#7, 0b111#3)] →
      decodeWord (f7 ++ rs2 ++ rs1 ++ f3 ++ rd ++ 0b0110011#7) = .opZero f7 f3 rd rs1 rs2) ∧
    (Executes (.add rd rs1 rs2) s → CompletesWith (.add rd rs1 rs2) rd (progReg s rs1 + progReg s rs2) s) ∧
    (Executes (.sub rd rs1 rs2) s → CompletesWith (.sub rd rs1 rs2) rd (progReg s rs1 - progReg s rs2) s) ∧
    (Executes (.xor rd rs1 rs2) s → CompletesWith (.xor rd rs1 rs2) rd (progReg s rs1 ^^^ progReg s rs2) s) ∧
    (Executes (.or rd rs1 rs2) s → CompletesWith (.or rd rs1 rs2) rd (progReg s rs1 ||| progReg s rs2) s) ∧
    (Executes (.and rd rs1 rs2) s → CompletesWith (.and rd rs1 rs2) rd (progReg s rs1 &&& progReg s rs2) s) ∧
    (Executes (.opZero f7 f3 rd rs1 rs2) s → CompletesWith (.opZero f7 f3 rd rs1 rs2) rd 0x00000000 s)

/-- ADDI, XORI, ORI and ANDI: their words decode to them, and in EX each completes with its result on the sign-extended
immediate (41_integer.md R117 to R120). -/
def Obligations.RegisterImmediateResults : Prop :=
  ∀ (s : State) (rd rs1 : Reg) (imm : BitVec 12),
    decodeWord (imm ++ rs1 ++ 0b000#3 ++ rd ++ 0b0010011#7) = .addi rd rs1 imm ∧
    decodeWord (imm ++ rs1 ++ 0b100#3 ++ rd ++ 0b0010011#7) = .xori rd rs1 imm ∧
    decodeWord (imm ++ rs1 ++ 0b110#3 ++ rd ++ 0b0010011#7) = .ori rd rs1 imm ∧
    decodeWord (imm ++ rs1 ++ 0b111#3 ++ rd ++ 0b0010011#7) = .andi rd rs1 imm ∧
    (Executes (.addi rd rs1 imm) s → CompletesWith (.addi rd rs1 imm) rd (progReg s rs1 + imm.signExtend 32) s) ∧
    (Executes (.xori rd rs1 imm) s → CompletesWith (.xori rd rs1 imm) rd (progReg s rs1 ^^^ imm.signExtend 32) s) ∧
    (Executes (.ori rd rs1 imm) s → CompletesWith (.ori rd rs1 imm) rd (progReg s rs1 ||| imm.signExtend 32) s) ∧
    (Executes (.andi rd rs1 imm) s → CompletesWith (.andi rd rs1 imm) rd (progReg s rs1 &&& imm.signExtend 32) s)

/-- OPIMM_ZERO, for each of its four funct3 values: under `OPIMM_UNMATCHED = zero` ID lets it into EX, where it completes
with 0; under `refuse` the step in which it would enter EX is refused. The spec's own extension (41_integer.md R121,
45_pipeline_engine.md R170; D15). -/
def Obligations.UnmatchedOpImmIsZeroOrRefused : Prop :=
  (∀ (s : State) (rd rs1 : Reg) (imm : BitVec 12) (f3 : BitVec 3), Executes (.opimmZero f3 rd rs1 imm) s →
    CompletesWith (.opimmZero f3 rd rs1 imm) rd 0x00000000 s) ∧
  (∀ (s : State) (rd rs1 : Reg) (imm : BitVec 12), ∀ f3 ∈ [0b001#3, 0b010#3, 0b011#3, 0b101#3],
    s.halted = false → MemSafe s → (exStage s).redirect = none → stall s = false → s.ID.nop = false →
    s.ID.instr = imm ++ rs1 ++ f3 ++ rd ++ 0b0010011#7 →
    (s.params.opimmUnmatched = .refuse → step s = .refused (.unmatchedOpImm s.ID.pc s.ID.instr)) ∧
    (s.params.opimmUnmatched = .zero → FetchSafe s → ∃ t, step s = .next t ∧ t.EX.holds (.opimmZero f3 rd rs1 imm)))

/-- The effective address of LW and SW is base plus sign-extended offset modulo 2^32, at any alignment, for every funct3; EX
places it in the MEM latch's result, and the base register keeps its value unless LW's rd names it (42_load_store.md R130). -/
def Obligations.LoadStoreEffectiveAddress : Prop :=
  ∀ (s : State) (f3 : BitVec 3) (rd rs1 rs2 : Reg) (imm : BitVec 12),
    (Executes (.lw f3 rd rs1 imm) s → ∃ t, exec (.lw f3 rd rs1 imm) s = .next t ∧
      t.MEM.aluResult = progReg s rs1 + imm.signExtend 32 ∧ (rs1 ≠ rd → progReg t rs1 = progReg s rs1)) ∧
    (Executes (.sw f3 rs1 rs2 imm) s → ∃ t, exec (.sw f3 rs1 rs2 imm) s = .next t ∧
      t.MEM.aluResult = progReg s rs1 + imm.signExtend 32 ∧ progReg t rs1 = progReg s rs1)

/-- LW, for every funct3: it completes; in program order rd holds the big-endian word at the effective address, nothing else
changes, the next instruction is at pc + 4. If the word is not wholly inside DMEM, the next step, in which the LW is in MEM,
is the fault instead (42_load_store.md R131, 20_memory.md R62; byte order D9, fault D10, funct3 D14). -/
def Obligations.LoadWordResult : Prop :=
  ∀ (s : State) (f3 : BitVec 3) (rd rs1 : Reg) (imm : BitVec 12), Executes (.lw f3 rd rs1 imm) s →
    ∃ t, exec (.lw f3 rd rs1 imm) s = .next t ∧
      t.MEM.nop = false ∧ t.MEM.rdMem = true ∧ t.MEM.wrtMem = false ∧ t.MEM.wrtRf = true ∧ t.MEM.rd = rd ∧
      (s.dmem.inRange (progReg s rs1 + imm.signExtend 32) → RegisterSet rd
        (progByte s (progReg s rs1 + imm.signExtend 32).toNat ++ progByte s ((progReg s rs1 + imm.signExtend 32).toNat + 1) ++
          progByte s ((progReg s rs1 + imm.signExtend 32).toNat + 2) ++
          progByte s ((progReg s rs1 + imm.signExtend 32).toNat + 3)) s t) ∧
      DataKept s t ∧ progPc t = pcPlus4 s.EX.pc ∧
      (¬s.dmem.inRange (progReg s rs1 + imm.signExtend 32) →
        step t = .fault (.dataOutOfRange (progReg s rs1 + imm.signExtend 32)))

/-- SW, for every funct3: it completes; in program order the four bytes at the effective address hold rs2's value, most
significant first, every other byte and every register is as before, the next instruction is at pc + 4. If the word is not
wholly inside DMEM, the next step, in which the SW is in MEM, is the fault instead (42_load_store.md R132, 20_memory.md R63;
byte order D9, fault D10, funct3 D14). -/
def Obligations.StoreWordResult : Prop :=
  ∀ (s : State) (f3 : BitVec 3) (rs1 rs2 : Reg) (imm : BitVec 12), Executes (.sw f3 rs1 rs2 imm) s → s.dmem.wf = true →
    ∃ t, exec (.sw f3 rs1 rs2 imm) s = .next t ∧
      t.MEM.nop = false ∧ t.MEM.rdMem = false ∧ t.MEM.wrtMem = true ∧ t.MEM.wrtRf = false ∧
      t.MEM.storeData = progReg s rs2 ∧ RegistersKept s t ∧ progPc t = pcPlus4 s.EX.pc ∧
      (s.dmem.inRange (progReg s rs1 + imm.signExtend 32) →
        DataSet (progReg s rs1 + imm.signExtend 32) (progReg s rs2) s t) ∧
      (¬s.dmem.inRange (progReg s rs1 + imm.signExtend 32) →
        step t = .fault (.dataOutOfRange (progReg s rs1 + imm.signExtend 32)))

/-- BEQ and BNE: their words decode to them (BNE for every funct3 but 000), and in EX each compares all 32 bits of the two
registers and redirects to pc + offset or goes on to pc + 4, writing nothing (43_control_transfer.md R141, R142). -/
def Obligations.BranchResults : Prop :=
  ∀ (s : State) (rs1 rs2 : Reg) (off : BitVec 13) (f3 : BitVec 3), off.getLsbD 0 = false →
    decodeWord (off.extractLsb' 12 1 ++ off.extractLsb' 5 6 ++ rs2 ++ rs1 ++ 0b000#3 ++ off.extractLsb' 1 4 ++
      off.extractLsb' 11 1 ++ 0b1100011#7) = .beq rs1 rs2 off ∧
    (f3 ≠ 0b000#3 → decodeWord (off.extractLsb' 12 1 ++ off.extractLsb' 5 6 ++ rs2 ++ rs1 ++ f3 ++ off.extractLsb' 1 4 ++
      off.extractLsb' 11 1 ++ 0b1100011#7) = .bne f3 rs1 rs2 off) ∧
    (Executes (.beq rs1 rs2 off) s →
      Branches (.beq rs1 rs2 off) (progReg s rs1 = progReg s rs2) (s.EX.pc + off.signExtend 32) s) ∧
    (Executes (.bne f3 rs1 rs2 off) s →
      Branches (.bne f3 rs1 rs2 off) (progReg s rs1 ≠ progReg s rs2) (s.EX.pc + off.signExtend 32) s)

/-- JAL always redirects to pc + offset, and in program order rd holds the link pc + 4 (43_control_transfer.md R143; the link
value is the spec's decision D13). -/
def Obligations.JumpAndLinkResult : Prop :=
  ∀ (s : State) (rd : Reg) (off : BitVec 21), Executes (.jal rd off) s →
    ∃ t, exec (.jal rd off) s = .next t ∧ CarriesResult rd (s.EX.pc + 4) t ∧ RegisterSet rd (s.EX.pc + 4) s t ∧
      DataKept s t ∧ t.IF = { nop := false, pc := s.EX.pc + off.signExtend 32 } ∧ t.ID = .bubble ∧ t.EX = .bubble ∧
      progPc t = s.EX.pc + off.signExtend 32

/-- HALT, fetched: the cycle completes; when no redirect and no stall overrides it, fetching stops with the PC held at the
HALT and the word enters ID as a bubble; a redirect cancels it; a stall holds it back. It writes no register and no memory and
the PC does not advance past it (44_halt.md R150, 45_pipeline_engine.md R175, R179; D6, D27, D28). -/
def Obligations.HaltResult : Prop :=
  ∀ (s : State) (w : Word), isHalt w = true → s.IF.nop = false → s.halted = false → MemSafe s →
    IdSafe (exStage s).redirect s →
    ∃ t, exec (.halt w) s = .next t ∧
      (∀ target, (exStage s).redirect = some target → t.IF = { nop := false, pc := target } ∧ t.ID = .bubble) ∧
      ((exStage s).redirect = none → stall s = true → t.IF = s.IF ∧ t.ID = s.ID) ∧
      ((exStage s).redirect = none → stall s = false →
        t.IF = { nop := true, pc := s.IF.pc } ∧ t.ID = { nop := true, pc := s.IF.pc, instr := w }) ∧
      (s.EX.nop = true → RegistersKept s t ∧ DataKept s t ∧ progPc t = progPc s)

/-! ## The stages -/

/-- MEM: a bubble passes a bubble and touches nothing; a store writes its word, a load takes the word of the memory as it was,
any other instruction passes its EX result; an access not wholly inside DMEM is the fault (45_pipeline_engine.md R163). -/
def Obligations.MemStageAccess : Prop :=
  ∀ s : State,
    (s.halted = false → ¬MemSafe s → step s = .fault (.dataOutOfRange s.MEM.aluResult)) ∧
    (∀ t, step s = .next t →
      (s.MEM.nop = true → t.WB = .bubble ∧ t.dmem = s.dmem) ∧
      (s.MEM.nop = false →
        t.WB =
          { nop := false
            wdata := if s.MEM.rdMem then s.dmem.readWord s.MEM.aluResult else s.MEM.aluResult
            rd := s.MEM.rd
            wrtRf := s.MEM.wrtRf } ∧
        t.dmem = if s.MEM.wrtMem then s.dmem.writeWord s.MEM.aluResult s.MEM.storeData else s.dmem))

/-- WB, whichever instruction is in EX: the register file changes only at the WB latch's rd, never at r0, and `retired` counts
every valid WB latch (45_pipeline_engine.md R162; r0 is D1, the count D17). The frame of every meaning on the register file. -/
def Obligations.OnlyWbWritesRegisters : Prop :=
  ∀ (i : Instr) (s t : State), exec i s = .next t ∨ step s = .next t →
    (∀ r, readReg t.rf r =
      if s.WB.nop = false ∧ s.WB.wrtRf = true ∧ r = s.WB.rd ∧ r ≠ 0 then s.WB.wdata else readReg s.rf r) ∧
    t.retired = s.retired + (if s.WB.nop then 0 else 1)

/-- The frame of every meaning on the rest: the parameters never change; the data memory changes only in the four bytes of the
store in MEM; the cycle is counted; `halted` becomes true exactly when all five latches were bubbles (45_pipeline_engine.md
R161, R163, R182; counting the final advance is D7). -/
def Obligations.EveryMeaningLeavesTheRest : Prop :=
  ∀ (i : Instr) (s t : State), exec i s = .next t ∨ step s = .next t →
    t.params = s.params ∧ t.cycle = s.cycle + 1 ∧ t.halted = allNop s ∧ t.dmem.size = s.dmem.size ∧
    (s.MEM.nop = true ∨ s.MEM.wrtMem = false → t.dmem = s.dmem) ∧
    (s.MEM.nop = false → s.MEM.wrtMem = true → ∀ a, a < s.MEM.aluResult.toNat ∨ s.MEM.aluResult.toNat + 3 < a →
      t.dmem.readByte a = s.dmem.readByte a)

/-- The operands EX uses are the registers in program order, at whatever distance their producers are, loads included
(45_pipeline_engine.md R165, R171, R190; D2, D4). -/
def Obligations.ForwardedOperandsAreCurrent : Prop :=
  ∀ s : State, s.EX.nop = false → OperandsCurrent s →
    operandA s s.EX.rs1 = progReg s s.EX.rs1 ∧ operandB0 s s.EX.rs2 = progReg s s.EX.rs2

/-- The next EX latch: a bubble on a redirect, an empty ID or a stall; else the decoded instruction, with the values its source
registers hold once this cycle's WB has written (45_pipeline_engine.md R173, R171; the same-cycle order is D4). -/
def Obligations.NextExLatch : Prop :=
  ∀ s t : State, step s = .next t →
    ((exStage s).redirect ≠ none ∨ s.ID.nop = true ∨ stall s = true → t.EX = .bubble) ∧
    ((exStage s).redirect = none → s.ID.nop = false → stall s = false →
      t.EX.nop = false ∧ t.EX.pc = s.ID.pc ∧ t.EX.desc = descOf s.ID.instr ∧
      t.EX.rv1 = readReg t.rf (descOf s.ID.instr).rs1 ∧ t.EX.rv2 = readReg t.rf (descOf s.ID.instr).rs2)

/-- The table of the next IF and ID latches, its five rows in their order (45_pipeline_engine.md R180). -/
def Obligations.NextFetchTable : Prop :=
  ∀ s t : State, step s = .next t →
    (∀ target, (exStage s).redirect = some target → t.IF = { nop := false, pc := target } ∧ t.ID = .bubble) ∧
    ((exStage s).redirect = none → stall s = true → t.IF = s.IF ∧ t.ID = s.ID) ∧
    ((exStage s).redirect = none → stall s = false → s.IF.nop = true → t.IF = s.IF ∧ t.ID = .bubble) ∧
    ((exStage s).redirect = none → stall s = false → s.IF.nop = false →
      (descOf (s.params.imem.readWord s.IF.pc)).op = .HALT →
      t.IF = { nop := true, pc := s.IF.pc } ∧
      t.ID = { nop := true, pc := s.IF.pc, instr := s.params.imem.readWord s.IF.pc }) ∧
    ((exStage s).redirect = none → stall s = false → s.IF.nop = false →
      (descOf (s.params.imem.readWord s.IF.pc)).op ≠ .HALT →
      t.IF = { nop := false, pc := s.IF.pc + 4 } ∧
      t.ID = { nop := false, pc := s.IF.pc, instr := s.params.imem.readWord s.IF.pc })

/-- A stall holds IF and ID, puts a bubble into EX and lets the load go on to MEM (45_pipeline_engine.md R178). -/
def Obligations.StallHoldsIfAndId : Prop :=
  ∀ s : State, stall s = true → ExDecoded s → CycleSafe s →
    ∃ t, step s = .next t ∧ t.IF = s.IF ∧ t.ID = s.ID ∧ t.EX = .bubble ∧
      t.MEM.nop = false ∧ t.MEM.rdMem = true ∧ t.MEM.rd = s.EX.rd

/-- Stall and redirect exclude each other, and neither happens twice in a row (45_pipeline_engine.md R181). -/
def Obligations.StallAndRedirectExclusive : Prop :=
  ∀ s : State, ExDecoded s →
    ¬(stall s = true ∧ (exStage s).redirect ≠ none) ∧
    ∀ t, step s = .next t →
      (stall s = true → stall t = false) ∧ ((exStage s).redirect ≠ none → (exStage t).redirect = none)

/-- A redirect makes the target the next fetch, also when fetching had stopped at a HALT on the not-taken path; a target
outside IMEM faults when it is fetched, in the next cycle (45_pipeline_engine.md R176). -/
def Obligations.RedirectFetchesTheTarget : Prop :=
  ∀ (s : State) (target : Word), ExDecoded s → (exStage s).redirect = some target → CycleSafe s →
    ∃ t, step s = .next t ∧ t.IF = { nop := false, pc := target } ∧
      (¬s.params.imem.inRange target → step t = .fault (.fetchOutOfRange target))

/-- The two instructions behind a taken branch or JAL leave no trace: whatever the ID latch holds and wherever IF fetches, the
next state is the same (45_pipeline_engine.md R177, R191; the flush depth is D5). -/
def Obligations.FlushedInstructionsLeaveNoTrace : Prop :=
  ∀ (s t t' : State) (otherIf : IFLatch) (otherId : IDLatch), (exStage s).redirect ≠ none →
    step s = .next t → step { s with IF := otherIf, ID := otherId } = .next t' → t' = t

/-- The field values of a bubble are never observable: forgetting them before a step changes nothing that is not forgotten
after it (10_state.md R34, 70_reset_and_hazards.md R242). -/
def Obligations.BubbleFieldsUnobservable : Prop :=
  ∀ s : State, forgetBubblesOf (step (forgetBubbles s)) = forgetBubblesOf (step s)

/-- The advance that finds every latch a bubble is counted, sets `halted` and changes no register, no memory, no counter of
retired instructions and no observable latch field; any other leaves `halted` false (45_pipeline_engine.md R161; D7). -/
def Obligations.FinalCycleHalts : Prop :=
  ∀ s : State, s.halted = false →
    (allNop s = true → ∃ t, step s = .next t ∧
      forgetBubbles t = forgetBubbles { s with cycle := s.cycle + 1, halted := true }) ∧
    (∀ t, allNop s = false → step s = .next t → t.halted = false)

/-! ## Memory -/

/-- Stores are never seen by instruction fetch: no run changes IMEM or any parameter, and what IF fetches does not depend on
the data memory (20_memory.md R72). -/
def Obligations.StoresNeverReachImem : Prop :=
  (∀ (n : Nat) (s t : State), run n s = .next t → t.params = s.params) ∧
  (∀ (s : State) (dmem : Memory), ifFetch { s with dmem } = ifFetch s)

/-- A store in MEM, then a load of the same address in MEM in the next cycle: the load takes the word stored
(20_memory.md R71, 42_load_store.md R133). -/
def Obligations.LoadAfterStoreReadsBack : Prop :=
  ∀ s t u : State, s.dmem.wf = true → s.MEM.nop = false → s.MEM.wrtMem = true → step s = .next t →
    t.MEM.nop = false → t.MEM.rdMem = true → t.MEM.aluResult = s.MEM.aluResult → step t = .next u →
    u.WB.nop = false ∧ u.WB.wdata = s.MEM.storeData

/-- A word stored at a, loaded at a + 1: bits 23:0 of the stored word, then the byte at a + 4 (20_memory.md R64; D9). -/
def Obligations.OverlappingLoadMixesBytes : Prop :=
  ∀ (m : Memory) (a v : Word), m.wf = true → a.toNat + 4 < m.size →
    (m.writeWord a v).readWord (a + 1) = v.extractLsb' 0 24 ++ m.readByte (a.toNat + 4)

/-- What a cycle reads into the next state and writes stands on its ports, with the value. A step changes the register file and the
data memory by the write ports' words only; the word that enters ID, redirect and stall apart, is the fetch port's; the operands
that enter EX are the register read ports'; the word a load in MEM hands to WB is the data read port's. Fetches and loads are in
range, a cycle whose MEM latch does not both load and store makes at most one data access, and `fault` shows exactly the faults
(45_pipeline_engine.md R186, 10_state.md R21, 20_memory.md R69; D33). That an idle port carries none is the model's choice (log
entry 20). -/
def Obligations.PortsCarryEveryAccess : Prop :=
  ∀ s : State, (∀ f, (ports s).fault = some f ↔ step s = .fault f) ∧
    ∀ t, step s = .next t →
      t.rf = (ports s).writeRf s.rf ∧ t.dmem = (ports s).writeDmem s.dmem ∧
      ((exStage s).redirect = none → stall s = false → s.IF.nop = false →
        (ports s).imemAddr = some t.ID.pc ∧ (ports s).imemRdata = some t.ID.instr) ∧
      (t.EX.nop = false →
        (ports s).rfRead = some (t.EX.rs1, t.EX.rs2) ∧ (ports s).rfRdata = some (t.EX.rv1, t.EX.rv2)) ∧
      (s.MEM.nop = false → s.MEM.rdMem = true →
        (ports s).dmemRead = some s.MEM.aluResult ∧ (ports s).dmemRdata = some t.WB.wdata) ∧
      (∀ a, (ports s).imemAddr = some a → s.params.imem.inRange a) ∧
      (∀ a, (ports s).dmemRead = some a → s.dmem.inRange a) ∧
      (MemOneAccess s → (ports s).dmemRead = none ∨ (ports s).dmemWrite = none)

/-! ## Program order and the reference -/

/-- What `progRf` and `progDmem` call program order is what the machine commits: the data memory one cycle later and the
register file two cycles later are exactly those (45_pipeline_engine.md R162, R163, 70_reset_and_hazards.md R248). -/
def Obligations.ProgramOrderStateIsCommitted : Prop :=
  ∀ s t : State, step s = .next t → t.dmem = progDmem s ∧ ∀ u, step t = .next u → u.rf = progRf s

/-- The invariant holds at reset, for any well-formed parameters, `State.reset`'s among them (10_state.md R38; D8; the sizes
and images of `State.reset` are log entry 2, the model's choice). -/
def Obligations.ResetMeetsInvariant : Prop :=
  (∀ p : Params, ParamsWf p → Invariant (.resetWith p)) ∧ Invariant .reset

/-- The `reset` input gives every piece of state its reset value, whatever it was, and keeps the parameters
(70_reset_and_hazards.md R240, 10_state.md R38; D8, D32). -/
def Obligations.ResetValues : Prop :=
  ∀ s : State,
    s.assertReset.IF = { nop := false, pc := 0x00000000 } ∧ s.assertReset.ID = .bubble ∧ s.assertReset.EX = .bubble ∧
    s.assertReset.MEM = .bubble ∧ s.assertReset.WB = .bubble ∧ (∀ r, readReg s.assertReset.rf r = 0x00000000) ∧
    s.assertReset.dmem = s.params.dmemInit ∧ s.assertReset.cycle = 0 ∧ s.assertReset.retired = 0 ∧
    s.assertReset.halted = false ∧ s.assertReset.params = s.params

/-- Every step keeps the invariant: r0 is 0, the memories keep their form, valid ID and EX latches hold the words of IMEM at
their own pcs with current operands, no load in MEM feeds EX, fetching stops only at a HALT, the pcs are in sequence, a halted
machine is empty (45_pipeline_engine.md R169, R188, R189). -/
def Obligations.StepKeepsInvariant : Prop := ∀ s t : State, Invariant s → step s = .next t → Invariant t

/-- One step of the pipeline is one step of the single-cycle reference when EX holds an instruction, and none when it is a
bubble; a fault of the reference is the pipeline's outcome one cycle later (45_pipeline_engine.md R192, R199; D25). -/
def Obligations.StepRefinesReference : Prop :=
  ∀ s t : State, Invariant s → step s = .next t →
    (s.EX.nop = true → progState t = progState s) ∧
    (s.EX.nop = false →
      refStep s.params.imem (progState s) = .next (progState t) ∨
      ∃ f, refStep s.params.imem (progState s) = .fault f ∧ step t = .fault f)

/-- Every run that ends halted ends where the single-cycle reference halts: after some number k of reference steps the
reference stands at a HALT with the pipeline's final registers and data memory, and the pipeline has retired exactly the
instructions that were in flight and those k (45_pipeline_engine.md R192, R193; D25). -/
def Obligations.HaltedRunEqualsReference : Prop :=
  ∀ (n : Nat) (s t : State), Invariant s → s.halted = false → run n s = .next t → t.halted = true →
    ∃ (k : Nat) (pc : Word),
      refSteps s.params.imem k (progState s) = some { pc, rf := t.rf, dmem := t.dmem } ∧
      refStep s.params.imem { pc, rf := t.rf, dmem := t.dmem } = .halt ∧
      t.retired = s.retired + inFlight s + k ∧ t.cycle = s.cycle + n

/-- The pipeline never hangs where the reference halts: if the reference halts after k steps, then within 3k + 3 cycles the
run is halted, or it has ended in a fault or a refusal (45_pipeline_engine.md R185, R192, R249). -/
def Obligations.PipelineHaltsWithinBound : Prop :=
  ∀ (k : Nat) (s : State) (a : ArchState), Invariant s → s.halted = false →
    refSteps s.params.imem k (progState s) = some a → refStep s.params.imem a = .halt →
    ∃ n, n ≤ 3 * k + 3 ∧
      ((∃ t, run n s = .next t ∧ t.halted = true) ∨ (∃ f, run n s = .fault f) ∨ (∃ r, run n s = .refused r))

/-- The drain: with IF, ID and EX empty and a safe instruction in MEM, three cycles later the machine is halted with the
registers and data memory of program order (45_pipeline_engine.md R161, R175; 00_scope.md R15). -/
def Obligations.DrainEndsHalted : Prop :=
  ∀ s : State, s.halted = false → s.IF.nop = true → s.ID.nop = true → s.EX.nop = true → s.MEM.nop = false → MemSafe s →
    ∃ t, run 3 s = .next t ∧ t.halted = true ∧ t.rf = progRf s ∧ t.dmem = progDmem s ∧
      t.retired = s.retired + inFlight s ∧ t.cycle = s.cycle + 3

/-- CPI times IPC is 1 for every state with a retired instruction and a counted cycle (45_pipeline_engine.md R193; D26). -/
def Obligations.CpiTimesIpcIsOne : Prop :=
  ∀ (s : State), s.retired ≠ 0 → s.cycle ≠ 0 →
    ∃ c i : Rat, cpi? s = some c ∧ ipc? s = some i ∧ c * i = 1

/-- A step reads IMEM, the register file and the data memory only through the ports' reads: with others that give the same words
at the addresses on the read ports, and hold the address on the data write port, it gives the same next state, the memories
apart, to which the same port writes are made (45_pipeline_engine.md R160, R186; D33). When a read port is idle is the model's
choice (log entry 20). -/
def Obligations.StepReadsOnlyThroughPorts : Prop :=
  ∀ (s t : State) (imem dmem : Memory) (rf : RegFile), step s = .next t →
    (∀ a, (ports s).imemAddr = some a → imem.inRange a ∧ imem.readWord a = s.params.imem.readWord a) →
    (∀ r1 r2, (ports s).rfRead = some (r1, r2) → readReg rf r1 = readReg s.rf r1 ∧ readReg rf r2 = readReg s.rf r2) →
    (∀ a, (ports s).dmemRead = some a → dmem.inRange a ∧ dmem.readWord a = s.dmem.readWord a) →
    (∀ a v, (ports s).dmemWrite = some (a, v) → dmem.inRange a) →
    step { s with params := { s.params with imem }, rf, dmem } =
      .next { t with
        params := { t.params with imem }, rf := (ports s).writeRf rf, dmem := (ports s).writeDmem dmem }
end

