-- ==== Sys2Proof/Laws/Ops.lean ====
section
/-! SUPPORT. The laws of the operations over memories and registers: what each can do, that every memory operation keeps the
canonical form, and that a read after a write gives the value written and a write leaves every other place alone. -/

namespace Sys2Proof.Machine

/-! ## Cells -/

theorem readCell_writeCell_other (cells : List Host.Cell) {a a' : Nat} (b : Byte) (h : a' ≠ a) :
    readCell (writeCell cells a b) a' = readCell cells a' := by
  induction cells with
  | nil => by_cases hb : b = Config.unlistedByte <;> simp [writeCell, readCell, hb, h.symm]
  | cons c rest ih =>
    obtain ⟨k, v⟩ := c
    by_cases hk : k < a
    · simp [writeCell, readCell, hk, ih]
    · by_cases hka : k = a <;> by_cases hb : b = Config.unlistedByte <;>
        simp [writeCell, readCell, hka, hb, h.symm] <;> simp [hk, readCell, h.symm]

/-- Below the first listed address nothing is listed. -/
theorem readCell_below {size low : Nat} {cells : List Host.Cell} (h : cellsWf size low cells = true) {a : Nat}
    (ha : a < low) : readCell cells a = Config.unlistedByte := by
  induction cells generalizing low with
  | nil => rfl
  | cons c rest ih =>
    obtain ⟨k, v⟩ := c
    simp only [cellsWf, Bool.and_eq_true, decide_eq_true_eq] at h
    obtain ⟨⟨hk, -, -⟩, hrest⟩ := h
    have : k ≠ a := by omega
    simpa [readCell, this] using ih hrest (by omega)

theorem readCell_writeCell_same {size low : Nat} {cells : List Host.Cell} (h : cellsWf size low cells = true) (a : Nat)
    (b : Byte) : readCell (writeCell cells a b) a = b := by
  induction cells generalizing low with
  | nil => by_cases hb : b = Config.unlistedByte <;> simp [writeCell, readCell, hb]
  | cons c rest ih =>
    obtain ⟨k, v⟩ := c
    simp only [cellsWf, Bool.and_eq_true, decide_eq_true_eq] at h
    obtain ⟨-, hrest⟩ := h
    by_cases hk : k < a
    · simpa [writeCell, readCell, hk, hk.ne] using ih hrest
    · by_cases hb : b = Config.unlistedByte
      · by_cases hka : k = a
        · subst hka
          simpa [writeCell, hb] using readCell_below hrest (Nat.lt_succ_self k)
        · have : readCell rest a = Config.unlistedByte := readCell_below hrest (by omega)
          simp [writeCell, readCell, hk, hka, hb, this]
      · simp [writeCell, readCell, hk, hb]

theorem cellsWf_mono {size low low' : Nat} {cells : List Host.Cell} (hl : low' ≤ low) (h : cellsWf size low cells = true) :
    cellsWf size low' cells = true := by
  cases cells with
  | nil => rfl
  | cons c rest =>
    obtain ⟨k, v⟩ := c
    simp only [cellsWf, Bool.and_eq_true, decide_eq_true_eq] at h ⊢
    exact ⟨⟨by omega, h.1.2⟩, h.2⟩

theorem writeCell_wf {size low : Nat} {cells : List Host.Cell} (h : cellsWf size low cells = true) {a : Nat} (b : Byte)
    (hl : low ≤ a) (ha : a < size) : cellsWf size low (writeCell cells a b) = true := by
  induction cells generalizing low with
  | nil => by_cases hb : b = Config.unlistedByte <;> simp [writeCell, cellsWf, hb, hl, ha]
  | cons c rest ih =>
    obtain ⟨k, v⟩ := c
    have h' := h
    simp only [cellsWf, Bool.and_eq_true, decide_eq_true_eq] at h
    obtain ⟨⟨hk, hks, hv⟩, hrest⟩ := h
    by_cases hka : k < a
    · simp [writeCell, hka, cellsWf, hk, hks, hv, ih hrest hka]
    · by_cases hk' : k = a
      · subst hk'
        by_cases hb : b = Config.unlistedByte
        · simpa [writeCell, hb] using cellsWf_mono (by omega) hrest
        · simp [writeCell, hb, cellsWf, hk, hks, hrest]
      · by_cases hb : b = Config.unlistedByte
        · simpa [writeCell, hka, hk', hb] using h'
        · have : a + 1 ≤ k := by omega
          simp [writeCell, hka, hk', hb, cellsWf, hl, ha, hks, hv, hrest, this]

/-! ## Bytes and words of a memory -/

theorem Memory.wf_cells {m : Memory} (h : m.wf = true) : cellsWf m.size 0 m.cells = true := by
  simp only [Memory.wf, Bool.and_eq_true] at h; exact h.2

theorem Memory.wf_size {m : Memory} (h : m.wf = true) : m.size ≤ Config.maxMemorySize := by
  simp only [Memory.wf, Bool.and_eq_true, decide_eq_true_eq] at h; exact h.1

@[simp] theorem Memory.writeByte_size (m : Memory) (a : Nat) (b : Byte) : (m.writeByte a b).size = m.size := rfl

@[simp] theorem Memory.writeWord_size (m : Memory) (a v : Word) : (m.writeWord a v).size = m.size := rfl

theorem Memory.writeByte_wf {m : Memory} (h : m.wf = true) {a : Nat} (b : Byte) (ha : a < m.size) :
    (m.writeByte a b).wf = true := by
  have hs := Memory.wf_size h
  simp [Memory.wf, Memory.writeByte, hs, writeCell_wf (Memory.wf_cells h) b (Nat.zero_le a) ha]

theorem Memory.readByte_writeByte_same {m : Memory} (h : m.wf = true) (a : Nat) (b : Byte) :
    (m.writeByte a b).readByte a = b := readCell_writeCell_same (Memory.wf_cells h) a b

theorem Memory.readByte_writeByte_other (m : Memory) {a a' : Nat} (b : Byte) (h : a' ≠ a) :
    (m.writeByte a b).readByte a' = m.readByte a' := readCell_writeCell_other m.cells b h

/-- A word write keeps the canonical form. -/
theorem Memory.writeWord_wf {m : Memory} (h : m.wf = true) {a : Word} (v : Word) (ha : m.inRange a) :
    (m.writeWord a v).wf = true := by
  unfold Memory.inRange at ha
  unfold Memory.writeWord
  refine Memory.writeByte_wf (Memory.writeByte_wf (Memory.writeByte_wf (Memory.writeByte_wf h _ ?_) _ ?_) _ ?_) _ ?_ <;>
    (try simp only [Memory.writeByte_size]) <;> omega

/-- A word write leaves every byte outside its four alone, whatever the memory. -/
theorem Memory.readByte_writeWord_outside (m : Memory) (a v : Word) {x : Nat} (hx : x < a.toNat ∨ a.toNat + 3 < x) :
    (m.writeWord a v).readByte x = m.readByte x := by
  unfold Memory.writeWord
  rw [Memory.readByte_writeByte_other _ _ (by omega), Memory.readByte_writeByte_other _ _ (by omega),
    Memory.readByte_writeByte_other _ _ (by omega), Memory.readByte_writeByte_other _ _ (by omega)]

/-- A word write gives its four bytes, most significant first. -/
theorem Memory.readByte_writeWord_inside {m : Memory} (h : m.wf = true) {a : Word} (v : Word) (ha : m.inRange a) {k : Nat}
    (hk : k < 4) : (m.writeWord a v).readByte (a.toNat + k) = byteOfWord v k := by
  unfold Memory.inRange at ha
  have w0 := Memory.writeByte_wf h (byteOfWord v 0) (a := a.toNat) (by omega)
  have w1 := Memory.writeByte_wf w0 (byteOfWord v 1) (a := a.toNat + 1) (by simp only [Memory.writeByte_size]; omega)
  have w2 := Memory.writeByte_wf w1 (byteOfWord v 2) (a := a.toNat + 2) (by simp only [Memory.writeByte_size]; omega)
  unfold Memory.writeWord
  obtain rfl | rfl | rfl | rfl : k = 0 ∨ k = 1 ∨ k = 2 ∨ k = 3 := by omega
  · rw [Memory.readByte_writeByte_other _ _ (by omega), Memory.readByte_writeByte_other _ _ (by omega),
      Memory.readByte_writeByte_other _ _ (by omega)]
    exact Memory.readByte_writeByte_same h _ _
  · rw [Memory.readByte_writeByte_other _ _ (by omega), Memory.readByte_writeByte_other _ _ (by omega)]
    exact Memory.readByte_writeByte_same w0 _ _
  · rw [Memory.readByte_writeByte_other _ _ (by omega)]
    exact Memory.readByte_writeByte_same w1 _ _
  · exact Memory.readByte_writeByte_same w2 _ _

/-- The four bytes of a word, concatenated big-endian, are the word. -/
theorem wordOfBytes_byteOfWord (v : Word) :
    wordOfBytes (byteOfWord v 0) (byteOfWord v 1) (byteOfWord v 2) (byteOfWord v 3) = v := by
  apply BitVec.eq_of_getLsbD_eq
  intro i hi
  simp only [wordOfBytes, byteOfWord, BitVec.getLsbD_append, BitVec.getLsbD_extractLsb']
  by_cases h0 : i < 8
  · simp [h0]
  · by_cases h1 : i - 8 < 8
    · simp [h0, h1]; congr 1; omega
    · by_cases h2 : i - 8 - 8 < 8
      · simp [h0, h1, h2]; congr 1; omega
      · have h3 : i - 8 - 8 - 8 < 8 := by omega
        simp [h0, h1, h2, h3]; congr 1; omega

/-- A load after a store to the same address reads the word stored. -/
theorem Memory.readWord_writeWord {m : Memory} (h : m.wf = true) {a : Word} (v : Word) (ha : m.inRange a) :
    (m.writeWord a v).readWord a = v := by
  have r := fun k hk => Memory.readByte_writeWord_inside h v ha (k := k) hk
  unfold Memory.readWord
  rw [← Nat.add_zero a.toNat, r 0 (by omega)]
  simp only [Nat.add_zero]
  rw [r 1 (by omega), r 2 (by omega), r 3 (by omega), wordOfBytes_byteOfWord]

/-! ## The access primitives -/

theorem imemRead_ok {m : Memory} {a : Word} (h : m.inRange a) : imemRead m a = .ok (m.readWord a) := if_pos h
theorem imemRead_error {m : Memory} {a : Word} (h : ¬m.inRange a) : imemRead m a = .error (.fetchOutOfRange a) := if_neg h
theorem memRead_ok {m : Memory} {a : Word} (h : m.inRange a) : memRead m a = .ok (m.readWord a) := if_pos h
theorem memRead_error {m : Memory} {a : Word} (h : ¬m.inRange a) : memRead m a = .error (.dataOutOfRange a) := if_neg h
theorem memWrite_ok {m : Memory} {a : Word} (v : Word) (h : m.inRange a) : memWrite m a v = .ok (m.writeWord a v) := if_pos h
theorem memWrite_error {m : Memory} {a : Word} (v : Word) (h : ¬m.inRange a) :
    memWrite m a v = .error (.dataOutOfRange a) := if_neg h

/-! ## Registers -/

@[simp] theorem readReg_zero (rf : RegFile) : readReg rf 0 = 0 := if_pos rfl

theorem readReg_nonzero (rf : RegFile) {r : Reg} (h : r ≠ 0) : readReg rf r = rf[r.toNat] := if_neg h

theorem writeReg_nonzero (rf : RegFile) {r : Reg} (h : r ≠ 0) (v : Word) : writeReg rf r v = rf.set r.toNat v := if_neg h

/-- A write of r0 is discarded. -/
@[simp] theorem writeReg_zero (rf : RegFile) (v : Word) : writeReg rf 0 v = rf := if_pos rfl

theorem readReg_writeReg_same (rf : RegFile) {r : Reg} (h : r ≠ 0) (v : Word) : readReg (writeReg rf r v) r = v := by
  rw [readReg_nonzero _ h, writeReg_nonzero _ h, Vector.getElem_set_self]

theorem readReg_writeReg_other (rf : RegFile) {r r' : Reg} (h : r' ≠ r) (v : Word) :
    readReg (writeReg rf r v) r' = readReg rf r' := by
  by_cases h' : r' = 0
  · rw [h', readReg_zero, readReg_zero]
  by_cases h0 : r = 0
  · rw [h0, writeReg_zero]
  · rw [readReg_nonzero _ h', readReg_nonzero _ h', writeReg_nonzero _ h0,
      Vector.getElem_set_ne _ _ fun e => h (BitVec.eq_of_toNat_eq e.symm)]

theorem readReg_writeReg (rf : RegFile) (r r' : Reg) (v : Word) :
    readReg (writeReg rf r v) r' = if r' = r ∧ r' ≠ 0 then v else readReg rf r' := by
  by_cases h : r' = r
  · subst h
    by_cases h0 : r' = 0
    · simp only [h0, readReg_zero, ne_eq, not_true_eq_false, and_false, if_false]
    · rw [if_pos ⟨rfl, h0⟩, readReg_writeReg_same _ h0]
  · rw [if_neg fun c => h c.1, readReg_writeReg_other _ h]

/-- A write keeps the word stored for r0. -/
theorem writeReg_zero_slot (rf : RegFile) (r : Reg) (v : Word) : (writeReg rf r v)[0] = rf[0] := by
  by_cases h : r = 0
  · rw [h, writeReg_zero]
  · have hn : r.toNat ≠ 0 := fun e => h (BitVec.eq_of_toNat_eq e)
    rw [writeReg_nonzero _ h, Vector.getElem_set_ne _ _ hn]

/-! ## Images -/

theorem cellsOfBytes_wf (a : Nat) (lines : List Byte) {size : Nat} (h : a + lines.length ≤ size) :
    cellsWf size a (cellsOfBytes a lines) = true := by
  induction lines generalizing a with
  | nil => rfl
  | cons b rest ih =>
    simp only [List.length_cons] at h
    have hrest := ih (a + 1) (by omega)
    by_cases hb : b = Config.unlistedByte
    · simpa [cellsOfBytes, hb] using cellsWf_mono (Nat.le_succ a) hrest
    · have : a < size := by omega
      simp [cellsOfBytes, hb, cellsWf, this, hrest]

/-- The memory of an image is in canonical form. -/
theorem Memory.ofImage_wf (lines : List Byte) (h : lines.length ≤ Config.maxMemorySize) : (Memory.ofImage lines).wf = true := by
  simp [Memory.wf, Memory.ofImage, h, cellsOfBytes_wf 0 lines]

theorem readCell_cellsOfBytes (a k : Nat) (lines : List Byte) :
    readCell (cellsOfBytes a lines) (a + k) = lines[k]?.getD Config.unlistedByte := by
  induction lines generalizing a k with
  | nil => rfl
  | cons b rest ih =>
    cases k with
    | zero =>
      by_cases hb : b = Config.unlistedByte
      · simpa [cellsOfBytes, hb] using
          readCell_below (cellsOfBytes_wf (a + 1) rest (size := a + 1 + rest.length) le_rfl) (Nat.lt_succ_self a)
      · simp [cellsOfBytes, hb, readCell]
    | succ k =>
      have e : a + (k + 1) = a + 1 + k := by omega
      by_cases hb : b = Config.unlistedByte
      · simpa [cellsOfBytes, hb, e] using ih (a + 1) k
      · have hne : a ≠ a + 1 + k := by omega
        simpa [cellsOfBytes, hb, readCell, e, hne] using ih (a + 1) k

/-- Line k of an image, counting from 0, is the byte at address k. -/
theorem Memory.ofImageSized_wf (size : Nat) (lines : List Byte) (hs : size ≤ Config.maxMemorySize)
    (hl : lines.length ≤ Config.maxMemorySize) : (Memory.ofImageSized size lines).wf = true := by
  simp [Memory.wf, Memory.ofImageSized, hs, hl, cellsOfBytes_wf 0 lines]

/-- The image's bytes from address 0, `Config.unlistedByte` past them (log entry 23). -/
theorem Memory.readByte_ofImageSized (size : Nat) (lines : List Byte) (k : Nat) :
    (Memory.ofImageSized size lines).readByte k = lines[k]?.getD Config.unlistedByte := by
  simpa [Memory.ofImageSized, Memory.readByte] using readCell_cellsOfBytes 0 k lines

theorem Memory.readByte_ofImage (lines : List Byte) (k : Nat) :
    (Memory.ofImage lines).readByte k = lines[k]?.getD Config.unlistedByte := by
  simpa [Memory.ofImage, Memory.readByte] using readCell_cellsOfBytes 0 k lines

end Sys2Proof.Machine
end

