-- ==== Sys2Proof/Laws/State.lean ====
section
/-! SUPPORT. The fields of every state the model builds: after reset, after a cycle's commit, and with an instruction placed.
All hold by unfolding once, so that no later proof unfolds a record. -/

namespace Sys2Proof.Machine

/-! ## Reset -/

@[simp] theorem resetWith_params (p : Params) : (State.resetWith p).params = p := rfl
@[simp] theorem resetWith_IF (p : Params) : (State.resetWith p).IF = { nop := false, pc := 0 } := rfl
@[simp] theorem resetWith_ID (p : Params) : (State.resetWith p).ID = .bubble := rfl
@[simp] theorem resetWith_EX (p : Params) : (State.resetWith p).EX = .bubble := rfl
@[simp] theorem resetWith_MEM (p : Params) : (State.resetWith p).MEM = .bubble := rfl
@[simp] theorem resetWith_WB (p : Params) : (State.resetWith p).WB = .bubble := rfl
@[simp] theorem resetWith_rf (p : Params) : (State.resetWith p).rf = .reset := rfl
@[simp] theorem resetWith_dmem (p : Params) : (State.resetWith p).dmem = p.dmemInit := rfl
@[simp] theorem resetWith_cycle (p : Params) : (State.resetWith p).cycle = 0 := rfl
@[simp] theorem resetWith_retired (p : Params) : (State.resetWith p).retired = 0 := rfl
@[simp] theorem resetWith_halted (p : Params) : (State.resetWith p).halted = false := rfl
@[simp] theorem assertReset_eq (s : State) : s.assertReset = .resetWith s.params := rfl

/-! ## Bubbles -/

@[simp] theorem IDLatch.bubble_nop : IDLatch.bubble.nop = true := rfl
@[simp] theorem EXLatch.bubble_nop : EXLatch.bubble.nop = true := rfl
@[simp] theorem MEMLatch.bubble_nop : MEMLatch.bubble.nop = true := rfl
@[simp] theorem WBLatch.bubble_nop : WBLatch.bubble.nop = true := rfl
@[simp] theorem MEMLatch.bubble_rdMem : MEMLatch.bubble.rdMem = false := rfl
@[simp] theorem MEMLatch.bubble_wrtMem : MEMLatch.bubble.wrtMem = false := rfl
@[simp] theorem ExOut.bubble_mem : ExOut.bubble.mem = .bubble := rfl
@[simp] theorem ExOut.bubble_redirect : ExOut.bubble.redirect = none := rfl

/-! ## The EX latch of a descriptor -/

section
variable (d : Desc) (pc rv1 rv2 : Word)

@[simp] theorem ofDesc_nop : (EXLatch.ofDesc d pc rv1 rv2).nop = false := rfl
@[simp] theorem ofDesc_pc : (EXLatch.ofDesc d pc rv1 rv2).pc = pc := rfl
@[simp] theorem ofDesc_rs1 : (EXLatch.ofDesc d pc rv1 rv2).rs1 = d.rs1 := rfl
@[simp] theorem ofDesc_rs2 : (EXLatch.ofDesc d pc rv1 rv2).rs2 = d.rs2 := rfl
@[simp] theorem ofDesc_rv1 : (EXLatch.ofDesc d pc rv1 rv2).rv1 = rv1 := rfl
@[simp] theorem ofDesc_rv2 : (EXLatch.ofDesc d pc rv1 rv2).rv2 = rv2 := rfl
@[simp] theorem ofDesc_rdMem : (EXLatch.ofDesc d pc rv1 rv2).rdMem = d.rdMem := rfl
@[simp] theorem ofDesc_wrtMem : (EXLatch.ofDesc d pc rv1 rv2).wrtMem = d.wrtMem := rfl
@[simp] theorem ofDesc_desc : (EXLatch.ofDesc d pc rv1 rv2).desc = d := rfl
end

/-! ## A commit -/

section
variable (s : State) (dmem : Memory) (wb : WBLatch) (ex : ExOut) (l : EXLatch) (w : Option Word)

@[simp] theorem commit_params : (commit s dmem wb ex l w).params = s.params := rfl
@[simp] theorem commit_IF : (commit s dmem wb ex l w).IF = (nextIfId ex.redirect w s).1 := rfl
@[simp] theorem commit_ID : (commit s dmem wb ex l w).ID = (nextIfId ex.redirect w s).2 := rfl
@[simp] theorem commit_EX : (commit s dmem wb ex l w).EX = l := rfl
@[simp] theorem commit_MEM : (commit s dmem wb ex l w).MEM = ex.mem := rfl
@[simp] theorem commit_WB : (commit s dmem wb ex l w).WB = wb := rfl
@[simp] theorem commit_rf : (commit s dmem wb ex l w).rf = wbRf s := rfl
@[simp] theorem commit_dmem : (commit s dmem wb ex l w).dmem = dmem := rfl
@[simp] theorem commit_cycle : (commit s dmem wb ex l w).cycle = s.cycle + 1 := rfl
@[simp] theorem commit_retired : (commit s dmem wb ex l w).retired = wbRetired s := rfl
@[simp] theorem commit_halted : (commit s dmem wb ex l w).halted = allNop s := rfl
end

/-! ## A placed instruction -/

section
variable (w : Word) (s : State)

@[simp] theorem placeDecoded_EX : (placeDecoded w s).EX =
    .ofDesc (descOf w) s.IF.pc (readReg s.rf (descOf w).rs1) (readReg s.rf (descOf w).rs2) := rfl
@[simp] theorem placeDecoded_MEM : (placeDecoded w s).MEM = s.MEM := rfl
@[simp] theorem placeDecoded_WB : (placeDecoded w s).WB = s.WB := rfl
@[simp] theorem placeDecoded_rf : (placeDecoded w s).rf = s.rf := rfl
@[simp] theorem placeDecoded_dmem : (placeDecoded w s).dmem = s.dmem := rfl
@[simp] theorem placeDecoded_halted : (placeDecoded w s).halted = false := rfl
@[simp] theorem placeUnfetched_IF : (placeUnfetched w s).IF = { nop := false, pc := s.IF.pc } := rfl
@[simp] theorem placeUnfetched_EX : (placeUnfetched w s).EX = .bubble := rfl
@[simp] theorem placeFetched_ID : (placeFetched w s).ID = { nop := false, pc := s.IF.pc, instr := w } := rfl
end

end Sys2Proof.Machine
end

