-- ==== Sys2Proof/Laws/Cycle.lean ====
section
/-! SUPPORT. What each stage and the cycle can do, said once: the value each answers when it is safe, the outcome it answers
when it is not, and the inversion of a cycle that gives a next state. -/

namespace Sys2Proof.Machine

/-! ## The stages -/

/-- The next WB latch of a safe MEM stage (45_pipeline_engine.md R163). -/
def nextWb (s : State) : WBLatch :=
  if s.MEM.nop then .bubble else { nop := false, wdata := memValue s, rd := s.MEM.rd, wrtRf := s.MEM.wrtRf }

/-- The next EX latch of a safe ID stage (45_pipeline_engine.md R173). -/
def nextEx (redirect : Option Word) (s : State) : EXLatch :=
  if redirect ≠ none ∨ s.ID.nop = true ∨ stall s = true then .bubble
  else .ofDesc (idDesc s) s.ID.pc (rfread s (idDesc s).rs1) (rfread s (idDesc s).rs2)

/-- The word a safe IF stage fetches (45_pipeline_engine.md R174). -/
def fetchedWord (s : State) : Option Word := if s.IF.nop then none else some (s.params.imem.readWord s.IF.pc)

theorem memStage_safe {s : State} (h : MemSafe s) : memStage s = .ok (progDmem s, nextWb s) := by
  by_cases hn : s.MEM.nop = true
  · simp [memStage, progDmem, nextWb, hn]
  · have hn' : s.MEM.nop = false := by simpa using hn
    have hd : memDmem s = .ok (progDmem s) := by
      by_cases hw : s.MEM.wrtMem = true
      · simp [memDmem, progDmem, hn', hw, memWrite_ok _ (h hn' (.inr hw))]
      · simp [memDmem, progDmem, hw]
    have hv : memData s = .ok (memValue s) := by
      by_cases hr : s.MEM.rdMem = true
      · simp [memData, memValue, hn', hr, memRead_ok (h hn' (.inl hr))]
      · simp [memData, memValue, hr]
    simp [memStage, nextWb, hn', hd, hv]

theorem memStage_unsafe {s : State} (h : ¬MemSafe s) : memStage s = .error (.dataOutOfRange s.MEM.aluResult) := by
  simp only [MemSafe, Classical.not_imp] at h
  obtain ⟨hn, hrw, hr⟩ := h
  by_cases hw : s.MEM.wrtMem = true
  · simp [memStage, memDmem, hn, hw, memWrite_error _ hr]
  · have hrd : s.MEM.rdMem = true := hrw.resolve_right hw
    simp [memStage, memDmem, memData, hn, hw, hrd, memRead_error hr]

theorem idStage_safe {redirect : Option Word} {s : State} (h : IdSafe redirect s) :
    idStage redirect s = .ok (nextEx redirect s) := by
  unfold idStage nextEx
  split_ifs with hb hr
  · rfl
  · simp only [ne_eq, not_or, not_not, Bool.not_eq_true] at hb
    exact absurd hr.1 (h hb.1 hb.2.1 hb.2.2 hr.2)
  · rfl

theorem idStage_unsafe {redirect : Option Word} {s : State} (h : ¬IdSafe redirect s) :
    idStage redirect s = .error (.unmatchedOpImm s.ID.pc s.ID.instr) := by
  simp only [IdSafe, Classical.not_imp, not_not] at h
  obtain ⟨hr, hn, hs, hp, ho⟩ := h
  simp [idStage, hr, hn, hs, hp, ho]

theorem ifFetch_safe {s : State} (h : FetchSafe s) : ifFetch s = .ok (fetchedWord s) := by
  by_cases hn : s.IF.nop = true
  · simp [ifFetch, fetchedWord, hn]
  · simp [ifFetch, fetchedWord, hn, imemRead_ok (h (by simpa using hn))]

theorem ifFetch_unsafe {s : State} (h : ¬FetchSafe s) : ifFetch s = .error (.fetchOutOfRange s.IF.pc) := by
  simp only [FetchSafe, Classical.not_imp] at h
  simp [ifFetch, h.1, imemRead_error h.2]

/-! ## The cycle -/

/-- The state a safe cycle commits. -/
def nextState (fetched : Option Word) (ex : ExOut) (s : State) : State :=
  commit s (progDmem s) (nextWb s) ex (nextEx ex.redirect s) fetched

theorem cycleWith_safe {s : State} {ex : ExOut} (fetched : Option Word) (hh : s.halted = false) (hm : MemSafe s)
    (hi : IdSafe ex.redirect s) : cycleWith (.ok fetched) ex s = .next (nextState fetched ex s) := by
  simp [cycleWith, hh, memStage_safe hm, idStage_safe hi, nextState]

theorem cycle_safe {s : State} {ex : ExOut} (hh : s.halted = false) (hm : MemSafe s) (hi : IdSafe ex.redirect s)
    (hf : FetchSafe s) : cycle ex s = .next (nextState (fetchedWord s) ex s) := by
  rw [cycle, ifFetch_safe hf, cycleWith_safe _ hh hm hi]

/-- A cycle that gives a next state was safe, and the next state is the one committed. -/
theorem cycleWith_next {fetch : Except Fault (Option Word)} {ex : ExOut} {s t : State} (h : cycleWith fetch ex s = .next t) :
    s.halted = false ∧ MemSafe s ∧ IdSafe ex.redirect s ∧ ∃ fetched, fetch = .ok fetched ∧ t = nextState fetched ex s := by
  unfold cycleWith at h
  split at h
  · cases h
  next hh =>
  by_cases hm : MemSafe s
  · rw [memStage_safe hm] at h
    by_cases hi : IdSafe ex.redirect s
    · simp only [idStage_safe hi] at h
      cases fetch with
      | error f => cases h
      | ok fetched =>
        simp only [Host.Outcome.next.injEq] at h
        exact ⟨by simpa using hh, hm, hi, fetched, rfl, h.symm⟩
    · simp only [idStage_unsafe hi] at h; cases h
  · simp only [memStage_unsafe hm] at h; cases h

theorem cycle_next {ex : ExOut} {s t : State} (h : cycle ex s = .next t) :
    s.halted = false ∧ MemSafe s ∧ IdSafe ex.redirect s ∧ FetchSafe s ∧ t = nextState (fetchedWord s) ex s := by
  obtain ⟨hh, hm, hi, fetched, hf, rfl⟩ := cycleWith_next h
  by_cases hs : FetchSafe s
  · rw [ifFetch_safe hs] at hf
    cases hf
    exact ⟨hh, hm, hi, hs, rfl⟩
  · rw [ifFetch_unsafe hs] at hf; cases hf

/-! ## What a cycle's next state holds -/

section
variable (w : Option Word) (ex : ExOut) (s : State)

@[simp] theorem nextState_params : (nextState w ex s).params = s.params := rfl
@[simp] theorem nextState_IF : (nextState w ex s).IF = (nextIfId ex.redirect w s).1 := rfl
@[simp] theorem nextState_ID : (nextState w ex s).ID = (nextIfId ex.redirect w s).2 := rfl
@[simp] theorem nextState_EX : (nextState w ex s).EX = nextEx ex.redirect s := rfl
@[simp] theorem nextState_MEM : (nextState w ex s).MEM = ex.mem := rfl
@[simp] theorem nextState_WB : (nextState w ex s).WB = nextWb s := rfl
@[simp] theorem nextState_rf : (nextState w ex s).rf = wbRf s := rfl
@[simp] theorem nextState_dmem : (nextState w ex s).dmem = progDmem s := rfl
@[simp] theorem nextState_cycle : (nextState w ex s).cycle = s.cycle + 1 := rfl
@[simp] theorem nextState_retired : (nextState w ex s).retired = wbRetired s := rfl
@[simp] theorem nextState_halted : (nextState w ex s).halted = allNop s := rfl
end

/-! ## The rows of the next IF and ID latches (45_pipeline_engine.md R180) -/

theorem nextIfId_redirect (target : Word) (w : Option Word) (s : State) :
    nextIfId (some target) w s = ({ nop := false, pc := target }, .bubble) := rfl

theorem nextIfId_stall {s : State} (h : stall s = true) (w : Option Word) : nextIfId none w s = (s.IF, s.ID) := by
  simp [nextIfId, h]

theorem nextIfId_stopped {s : State} (h : stall s = false) (hn : s.IF.nop = true) (w : Option Word) :
    nextIfId none w s = (s.IF, .bubble) := by
  simp [nextIfId, h, hn]

theorem nextIfId_halt {s : State} (h : stall s = false) (hn : s.IF.nop = false) {w : Word} (hw : isHalt w = true) :
    nextIfId none (some w) s = ({ nop := true, pc := s.IF.pc }, { nop := true, pc := s.IF.pc, instr := w }) := by
  simp [nextIfId, h, hn, hw]

theorem nextIfId_fetch {s : State} (h : stall s = false) (hn : s.IF.nop = false) {w : Word} (hw : isHalt w = false) :
    nextIfId none (some w) s =
      ({ nop := false, pc := pcPlus4 s.IF.pc }, { nop := false, pc := s.IF.pc, instr := w }) := by
  simp [nextIfId, h, hn, hw]

/-- A stall needs a valid instruction in ID and a load in EX (45_pipeline_engine.md R172). -/
theorem stall_true {s : State} (h : stall s = true) :
    s.ID.nop = false ∧ s.EX.nop = false ∧ s.EX.rdMem = true ∧ s.EX.rd ≠ 0 ∧
      ((idDesc s).rs1 = s.EX.rd ∨ (idDesc s).rs2 = s.EX.rd) := by
  simpa [stall, and_assoc] using h

theorem exStage_nop {s : State} (h : s.EX.nop = true) : exStage s = .bubble := if_pos h

/-! ## Registers, data memory and PC in program order -/

/-- The register file after WB, register by register: what ID reads in the same cycle (45_pipeline_engine.md R162, R171). -/
theorem readReg_wbRf (s : State) (r : Reg) : readReg (wbRf s) r = rfread s r := by
  unfold wbRf rfread
  by_cases h0 : r = 0
  · simp [h0, readReg]
  · by_cases hw : s.WB.nop = false ∧ s.WB.wrtRf = true
    · rw [if_pos hw, readReg_writeReg, if_neg h0]
      by_cases hr : r = s.WB.rd
      · rw [if_pos ⟨hr, h0⟩, if_pos ⟨hw.1, hw.2, hr.symm⟩]
      · rw [if_neg (fun h => hr h.1), if_neg (fun h => hr h.2.2.symm)]
    · rw [if_neg hw, if_neg h0, if_neg (fun h => hw ⟨h.1, h.2.1⟩)]

/-- A register in program order: MEM's value if MEM writes it, else what ID would read. -/
theorem progReg_eq (s : State) (r : Reg) :
    progReg s r = if s.MEM.nop = false ∧ s.MEM.wrtRf = true ∧ r = s.MEM.rd ∧ r ≠ 0 then memValue s else rfread s r := by
  unfold progReg progRf
  by_cases hw : s.MEM.nop = false ∧ s.MEM.wrtRf = true
  · rw [if_pos hw, readReg_writeReg, readReg_wbRf]; simp only [hw, true_and]
  · rw [if_neg hw, readReg_wbRf, if_neg (fun h => hw ⟨h.1, h.2.1⟩)]

/-- After a cycle, WB's write leaves the register file of program order before it. -/
theorem wbRf_next (w : Option Word) (ex : ExOut) (s : State) : wbRf (nextState w ex s) = progRf s := by
  unfold wbRf progRf
  simp only [nextState_WB, nextWb, nextState_rf]
  by_cases hn : s.MEM.nop = true
  · simp [hn]
  · simp [hn]

/-- The registers in program order after a cycle are those before it with EX's result, if it has one. -/
theorem progRf_next (w : Option Word) (ex : ExOut) (s : State) : progRf (nextState w ex s) =
    if ex.mem.nop = false ∧ ex.mem.wrtRf = true then
      writeReg (progRf s) ex.mem.rd (if ex.mem.rdMem then (progDmem s).readWord ex.mem.aluResult else ex.mem.aluResult)
    else progRf s := by
  rw [progRf, wbRf_next]; rfl

/-- The data memory in program order after a cycle is that before it with EX's store, if it is one. -/
theorem progDmem_next (w : Option Word) (ex : ExOut) (s : State) : progDmem (nextState w ex s) =
    if ex.mem.nop = false ∧ ex.mem.wrtMem = true then (progDmem s).writeWord ex.mem.aluResult ex.mem.storeData
    else progDmem s := rfl

theorem progDmem_size (s : State) : (progDmem s).size = s.dmem.size := by
  unfold progDmem; split_ifs <;> simp

/-- After a redirect the next instruction in program order is the target. -/
theorem progPc_redirect (w : Option Word) (ex : ExOut) (s : State) (t : Word) (h : ex.redirect = some t) :
    progPc (nextState w ex s) = t := by
  unfold progPc; simp [h, nextIfId, nextEx]

/-- Without a redirect the instruction after the one in EX is the next word. -/
theorem progPc_seq (ex : ExOut) (s : State) (hp : PcsInSequence s) (hn : s.EX.nop = false) (h : ex.redirect = none) :
    progPc (nextState (fetchedWord s) ex s) = pcPlus4 s.EX.pc := by
  obtain ⟨p1, p2, p3⟩ := hp
  unfold progPc
  simp only [nextState_EX, nextState_ID, nextState_IF, h]
  by_cases hi : s.ID.nop = true
  · have hs : stall s = false := by simp [stall, hi]
    simp only [nextEx, hi, hs]
    simp only [true_or, or_true, if_true, EXLatch.bubble_nop]
    by_cases hf : s.IF.nop = true
    · rw [nextIfId_stopped hs hf]; simpa using p3 hn hi
    · simp only [fetchedWord, hf]
      simp only [Bool.not_eq_true] at hf
      by_cases hw : isHalt (s.params.imem.readWord s.IF.pc) = true
      · have := nextIfId_halt hs hf hw
        simp [this]; exact p3 hn hi
      · simp only [Bool.not_eq_true] at hw
        have := nextIfId_fetch hs hf hw
        simp [this]; exact p3 hn hi
  · simp only [Bool.not_eq_true] at hi
    have q := p2 hn hi
    by_cases hs : stall s = true
    · rw [nextIfId_stall hs]; simp [nextEx, hs, hi, q]
    · simp only [Bool.not_eq_true] at hs
      simp [nextEx, hs, hi, q]

/-! ## Runs -/

@[simp] theorem run_zero (s : State) : run 0 s = .next s := rfl

theorem run_next {s t : State} (h : step s = .next t) (n : Nat) : run (n + 1) s = run n t := by
  simp only [run, h]

theorem run_fault {s : State} {f : Fault} (h : step s = .fault f) (n : Nat) : run (n + 1) s = .fault f := by
  simp only [run, h]

theorem run_refused {s : State} {r : Refusal} (h : step s = .refused r) (n : Nat) : run (n + 1) s = .refused r := by
  simp only [run, h]

/-- The run of claims is the host's run of `core`. -/
theorem run_eq_core_run (n : Nat) (s : State) : run n s = core.run n s := by
  induction n generalizing s with
  | zero => rfl
  | succ n ih =>
    cases h : step s with
    | next t =>
      have e : core.step s = .next t := h
      rw [run_next h, ih]
      simp only [Host.Core.run, e]
      rfl
    | fault f =>
      have e : core.step s = .fault f := h
      rw [run_fault h]
      simp only [Host.Core.run, e]
      rfl
    | refused r =>
      have e : core.step s = .refused r := h
      rw [run_refused h]
      simp only [Host.Core.run, e]
      rfl

/-! ## The write ports (45_pipeline_engine.md R186) -/

theorem ports_writeRf (s : State) (rf : RegFile) :
    (ports s).writeRf rf = if s.WB.nop = false ∧ s.WB.wrtRf = true then writeReg rf s.WB.rd s.WB.wdata else rf := by
  simp only [ports, Ports.writeRf]
  by_cases hw : s.WB.nop = false ∧ s.WB.wrtRf = true
  · rw [if_pos hw]
    by_cases h0 : s.WB.rd = 0
    · rw [if_neg (fun h => h.2.2 h0), h0, writeReg_zero]
    · rw [if_pos ⟨hw.1, hw.2, h0⟩]
  · rw [if_neg hw, if_neg (fun h => hw ⟨h.1, h.2.1⟩)]

theorem ports_writeDmem (s : State) (dmem : Memory) :
    (ports s).writeDmem dmem =
      if s.MEM.nop = false ∧ s.MEM.wrtMem = true then dmem.writeWord s.MEM.aluResult s.MEM.storeData else dmem := by
  simp only [ports, Ports.writeDmem]
  by_cases hw : s.MEM.nop = false ∧ s.MEM.wrtMem = true
  · rw [if_pos hw, if_pos hw]
  · rw [if_neg hw, if_neg hw]

end Sys2Proof.Machine
end

