-- ==== Sys2Proof/Laws/Decode.lean ====
section
/-! SUPPORT. The fields of an encoded word, format by format (30_encoding.md R82 to R86), the word behind a run of bytes, and
what a descriptor keeps of its instruction. -/

namespace Sys2Proof

open BitVec in
theorem encodeR_fields (f7 : BitVec 7) (rs2 rs1 : Reg) (f3 : BitVec 3) (rd : Reg) :
    opcodeOf (encodeR f7 rs2 rs1 f3 rd) = opR ∧ rdOf (encodeR f7 rs2 rs1 f3 rd) = rd ∧
      funct3Of (encodeR f7 rs2 rs1 f3 rd) = f3 ∧ rs1Of (encodeR f7 rs2 rs1 f3 rd) = rs1 ∧
      rs2Of (encodeR f7 rs2 rs1 f3 rd) = rs2 ∧ funct7Of (encodeR f7 rs2 rs1 f3 rd) = f7 := by
  refine ⟨?_, ?_, ?_, ?_, ?_, ?_⟩ <;>
    simp (disch := decide) only [opcodeOf, rdOf, funct3Of, rs1Of, rs2Of, funct7Of, encodeR, extractLsb'_append_eq_of_le,
      extractLsb'_append_eq_of_add_le, extractLsb'_eq_self, Nat.reduceSub]

open BitVec in
theorem encodeI_fields (imm : BitVec 12) (rs1 : Reg) (f3 : BitVec 3) (rd : Reg) (opcode : BitVec 7) :
    opcodeOf (encodeI imm rs1 f3 rd opcode) = opcode ∧ rdOf (encodeI imm rs1 f3 rd opcode) = rd ∧
      funct3Of (encodeI imm rs1 f3 rd opcode) = f3 ∧ rs1Of (encodeI imm rs1 f3 rd opcode) = rs1 ∧
      immIOf (encodeI imm rs1 f3 rd opcode) = imm := by
  refine ⟨?_, ?_, ?_, ?_, ?_⟩ <;>
    simp (disch := decide) only [opcodeOf, rdOf, funct3Of, rs1Of, immIOf, encodeI, extractLsb'_append_eq_of_le,
      extractLsb'_append_eq_of_add_le, extractLsb'_eq_self, Nat.reduceSub]

open BitVec in
theorem encodeS_fields (imm : BitVec 12) (rs2 rs1 : Reg) (f3 : BitVec 3) :
    opcodeOf (encodeS imm rs2 rs1 f3) = opStore ∧ funct3Of (encodeS imm rs2 rs1 f3) = f3 ∧
      rs1Of (encodeS imm rs2 rs1 f3) = rs1 ∧ rs2Of (encodeS imm rs2 rs1 f3) = rs2 ∧
      immSOf (encodeS imm rs2 rs1 f3) = imm := by
  refine ⟨?_, ?_, ?_, ?_, ?_⟩ <;>
    simp (disch := decide) only [opcodeOf, funct3Of, rs1Of, rs2Of, immSOf, encodeS, extractLsb'_append_eq_of_le,
      extractLsb'_append_eq_of_add_le, extractLsb'_eq_self, Nat.reduceSub]
  rw [extractLsb'_append_extractLsb'_eq_extractLsb' (by decide), extractLsb'_eq_self]

/-- The bits of an even offset, taken apart as a branch word holds them, are the offset. -/
theorem immB_pieces (off : BitVec 13) (h : off.getLsbD 0 = false) :
    off.extractLsb' 12 1 ++ off.extractLsb' 11 1 ++ off.extractLsb' 5 6 ++ off.extractLsb' 1 4 ++ 0#1 = off := by
  apply BitVec.eq_of_getLsbD_eq
  intro i hi
  simp only [BitVec.getLsbD_append, BitVec.getLsbD_extractLsb']
  interval_cases i <;> simp_all

open BitVec in
theorem encodeB_fields (off : BitVec 13) (rs2 rs1 : Reg) (f3 : BitVec 3) (h : off.getLsbD 0 = false) :
    opcodeOf (encodeB off rs2 rs1 f3) = opBranch ∧ funct3Of (encodeB off rs2 rs1 f3) = f3 ∧
      rs1Of (encodeB off rs2 rs1 f3) = rs1 ∧ rs2Of (encodeB off rs2 rs1 f3) = rs2 ∧
      immBOf (encodeB off rs2 rs1 f3) = off := by
  refine ⟨?_, ?_, ?_, ?_, ?_⟩ <;>
    simp (disch := decide) only [opcodeOf, funct3Of, rs1Of, rs2Of, immBOf, encodeB, extractLsb'_append_eq_of_le,
      extractLsb'_append_eq_of_add_le, extractLsb'_eq_self, Nat.reduceSub]
  exact immB_pieces off h

/-- The bits of an even offset, taken apart as a JAL word holds them, are the offset. -/
theorem immJ_pieces (off : BitVec 21) (h : off.getLsbD 0 = false) :
    off.extractLsb' 20 1 ++ off.extractLsb' 12 8 ++ off.extractLsb' 11 1 ++ off.extractLsb' 1 10 ++ 0#1 = off := by
  apply BitVec.eq_of_getLsbD_eq
  intro i hi
  simp only [BitVec.getLsbD_append, BitVec.getLsbD_extractLsb']
  interval_cases i <;> simp_all

open BitVec in
theorem encodeJ_fields (off : BitVec 21) (rd : Reg) (h : off.getLsbD 0 = false) :
    opcodeOf (encodeJ off rd) = opJal ∧ rdOf (encodeJ off rd) = rd ∧ immJOf (encodeJ off rd) = off := by
  refine ⟨?_, ?_, ?_⟩ <;>
    simp (disch := decide) only [opcodeOf, rdOf, immJOf, encodeJ, extractLsb'_append_eq_of_le,
      extractLsb'_append_eq_of_add_le, extractLsb'_eq_self, Nat.reduceSub]
  exact immJ_pieces off h

open BitVec in
/-- A word is its R-type fields put together again. -/
theorem encodeR_of_fields {w : Word} (h : opcodeOf w = opR) :
    encodeR (funct7Of w) (rs2Of w) (rs1Of w) (funct3Of w) (rdOf w) = w := by
  rw [encodeR, ← h]
  unfold funct7Of rs2Of rs1Of funct3Of rdOf opcodeOf
  apply BitVec.eq_of_getLsbD_eq
  intro i hi
  simp only [getLsbD_append, getLsbD_extractLsb']
  interval_cases i <;> simp

open BitVec in
/-- A word is its I-type fields put together again, whatever its opcode. -/
theorem encodeI_of_fields (w : Word) :
    encodeI (immIOf w) (rs1Of w) (funct3Of w) (rdOf w) (opcodeOf w) = w := by
  unfold encodeI immIOf rs1Of funct3Of rdOf opcodeOf
  apply BitVec.eq_of_getLsbD_eq
  intro i hi
  simp only [getLsbD_append, getLsbD_extractLsb']
  interval_cases i <;> simp

open BitVec in
/-- A store word is its S-type fields put together again. -/
theorem encodeS_of_fields {w : Word} (h : opcodeOf w = opStore) :
    encodeS (immSOf w) (rs2Of w) (rs1Of w) (funct3Of w) = w := by
  rw [encodeS, ← h]
  unfold immSOf rs2Of rs1Of funct3Of opcodeOf
  apply BitVec.eq_of_getLsbD_eq
  intro i hi
  simp only [getLsbD_append, getLsbD_extractLsb']
  interval_cases i <;> simp

open BitVec in
/-- A branch word is its B-type fields put together again. -/
theorem encodeB_of_fields {w : Word} (h : opcodeOf w = opBranch) :
    encodeB (immBOf w) (rs2Of w) (rs1Of w) (funct3Of w) = w := by
  rw [encodeB, ← h]
  unfold immBOf rs2Of rs1Of funct3Of opcodeOf
  apply BitVec.eq_of_getLsbD_eq
  intro i hi
  simp only [getLsbD_append, getLsbD_extractLsb']
  interval_cases i <;> simp

open BitVec in
/-- A JAL word is its J-type fields put together again. -/
theorem encodeJ_of_fields {w : Word} (h : opcodeOf w = opJal) :
    encodeJ (immJOf w) (rdOf w) = w := by
  rw [encodeJ, ← h]
  unfold immJOf rdOf opcodeOf
  apply BitVec.eq_of_getLsbD_eq
  intro i hi
  simp only [getLsbD_append, getLsbD_extractLsb']
  interval_cases i <;> simp

theorem immB_even (w : Word) : (immBOf w).getLsbD 0 = false := by rw [immBOf, BitVec.getLsbD_append]; rfl
theorem immJ_even (w : Word) : (immJOf w).getLsbD 0 = false := by rw [immJOf, BitVec.getLsbD_append]; rfl

/-- Decoding the bytes of a word, whatever follows them, is decoding the word. -/
theorem decode_bytesOfWord (w : Word) (rest : List Byte) : decode (bytesOfWord w ++ rest) = .ok (decodeWord w, rest) := by
  simp [bytesOfWord, decode, Machine.wordOfBytes_byteOfWord]

/-- The low bits of a sign-extended value are the value. -/
theorem extractLsb'_sext {n : Nat} (v : BitVec n) (h : n ≤ 32) : (sext v).extractLsb' 0 n = v := by
  apply BitVec.eq_of_getLsbD_eq
  intro i hi
  simp [sext, BitVec.getLsbD_signExtend, hi]
  omega

theorem sext_injective {n : Nat} (h : n ≤ 32) {v v' : BitVec n} (e : sext v = sext v') : v = v' := by
  rw [← extractLsb'_sext v h, e, extractLsb'_sext v' h]

end Sys2Proof
end

