-- ==== Sys2Proof/Laws/PerInstr.lean ====
section
/-! SUPPORT. The per-instruction family EncodeDecode: the decoder reads back the word of a well-formed instruction. -/

namespace Sys2Proof.Laws.EncodeDecode

/-- Decoding the encoded word of `i` gives `i`, every operand included. -/
def Statement (i : Instr) : Prop := i.wf = true → decodeWord (encode i) = i

/-- Decoding an R-type word keys on the pair (30_encoding.md R92). -/
theorem decodeWord_encodeR (f7 : BitVec 7) (rs2 rs1 : Reg) (f3 : BitVec 3) (rd : Reg) :
    decodeWord (encodeR f7 rs2 rs1 f3 rd) =
      if f7 = 0b0000000 ∧ f3 = 0b000 then .add rd rs1 rs2
      else if f7 = 0b0100000 ∧ f3 = 0b000 then .sub rd rs1 rs2
      else if f7 = 0b0000000 ∧ f3 = 0b100 then .xor rd rs1 rs2
      else if f7 = 0b0000000 ∧ f3 = 0b110 then .or rd rs1 rs2
      else if f7 = 0b0000000 ∧ f3 = 0b111 then .and rd rs1 rs2
      else .opZero f7 f3 rd rs1 rs2 := by
  obtain ⟨h, hrd, hf3, hrs1, hrs2, hf7⟩ := encodeR_fields f7 rs2 rs1 f3 rd
  simp only [decodeWord, decodeR, h, hrd, hf3, hrs1, hrs2, hf7, if_true]

/-- Decoding an OP-IMM word keys on funct3. -/
theorem decodeWord_encodeOpImm (imm : BitVec 12) (rs1 : Reg) (f3 : BitVec 3) (rd : Reg) :
    decodeWord (encodeI imm rs1 f3 rd opImm) =
      if f3 = 0b000 then .addi rd rs1 imm
      else if f3 = 0b100 then .xori rd rs1 imm
      else if f3 = 0b110 then .ori rd rs1 imm
      else if f3 = 0b111 then .andi rd rs1 imm
      else .opimmZero f3 rd rs1 imm := by
  obtain ⟨h, hrd, hf3, hrs1, himm⟩ := encodeI_fields imm rs1 f3 rd opImm
  have h0 : opImm ≠ opR := by decide
  simp only [decodeWord, decodeOpImm, h, h0, hrd, hf3, hrs1, himm, if_true, if_false]

theorem decodeWord_encodeLoad (imm : BitVec 12) (rs1 : Reg) (f3 : BitVec 3) (rd : Reg) :
    decodeWord (encodeI imm rs1 f3 rd opLoad) = .lw f3 rd rs1 imm := by
  obtain ⟨h, hrd, hf3, hrs1, himm⟩ := encodeI_fields imm rs1 f3 rd opLoad
  have h0 : opLoad ≠ opR := by decide
  have h1 : opLoad ≠ opImm := by decide
  simp only [decodeWord, h, h0, h1, hrd, hf3, hrs1, himm, if_true, if_false]

theorem decodeWord_encodeS (imm : BitVec 12) (rs2 rs1 : Reg) (f3 : BitVec 3) :
    decodeWord (encodeS imm rs2 rs1 f3) = .sw f3 rs1 rs2 imm := by
  obtain ⟨h, hf3, hrs1, hrs2, himm⟩ := encodeS_fields imm rs2 rs1 f3
  have h0 : opStore ≠ opR := by decide
  have h1 : opStore ≠ opImm := by decide
  have h2 : opStore ≠ opLoad := by decide
  simp only [decodeWord, h, h0, h1, h2, hf3, hrs1, hrs2, himm, if_true, if_false]

theorem decodeWord_encodeB (off : BitVec 13) (rs2 rs1 : Reg) (f3 : BitVec 3) (he : off.getLsbD 0 = false) :
    decodeWord (encodeB off rs2 rs1 f3) = if f3 = 0b000 then .beq rs1 rs2 off else .bne f3 rs1 rs2 off := by
  obtain ⟨h, hf3, hrs1, hrs2, hoff⟩ := encodeB_fields off rs2 rs1 f3 he
  have h0 : opBranch ≠ opR := by decide
  have h1 : opBranch ≠ opImm := by decide
  have h2 : opBranch ≠ opLoad := by decide
  have h3 : opBranch ≠ opStore := by decide
  simp only [decodeWord, decodeBranch, h, h0, h1, h2, h3, hf3, hrs1, hrs2, hoff, if_true, if_false]

theorem decodeWord_encodeJ (off : BitVec 21) (rd : Reg) (he : off.getLsbD 0 = false) :
    decodeWord (encodeJ off rd) = .jal rd off := by
  obtain ⟨h, hrd, hoff⟩ := encodeJ_fields off rd he
  have h0 : opJal ≠ opR := by decide
  have h1 : opJal ≠ opImm := by decide
  have h2 : opJal ≠ opLoad := by decide
  have h3 : opJal ≠ opStore := by decide
  have h4 : opJal ≠ opBranch := by decide
  simp only [decodeWord, h, h0, h1, h2, h3, h4, hrd, hoff, if_true, if_false]

theorem add (rd rs1 rs2 : Reg) : Statement (.add rd rs1 rs2) := fun _ => decodeWord_encodeR ..
theorem sub (rd rs1 rs2 : Reg) : Statement (.sub rd rs1 rs2) := fun _ => decodeWord_encodeR ..
theorem xor (rd rs1 rs2 : Reg) : Statement (.xor rd rs1 rs2) := fun _ => decodeWord_encodeR ..
theorem or (rd rs1 rs2 : Reg) : Statement (.or rd rs1 rs2) := fun _ => decodeWord_encodeR ..
theorem and (rd rs1 rs2 : Reg) : Statement (.and rd rs1 rs2) := fun _ => decodeWord_encodeR ..

theorem opZero (f7 : BitVec 7) (f3 : BitVec 3) (rd rs1 rs2 : Reg) : Statement (.opZero f7 f3 rd rs1 rs2) := by
  intro h
  have h' : ¬isRTypePair f7 f3 = true := by simpa [Instr.wf] using h
  simp only [isRTypePair, Bool.or_eq_true, Bool.and_eq_true, beq_iff_eq] at h'
  rw [encode, decodeWord_encodeR]
  split_ifs <;> first | rfl | (exfalso; tauto)

theorem addi (rd rs1 : Reg) (imm : BitVec 12) : Statement (.addi rd rs1 imm) := fun _ => decodeWord_encodeOpImm ..
theorem xori (rd rs1 : Reg) (imm : BitVec 12) : Statement (.xori rd rs1 imm) := fun _ => decodeWord_encodeOpImm ..
theorem ori (rd rs1 : Reg) (imm : BitVec 12) : Statement (.ori rd rs1 imm) := fun _ => decodeWord_encodeOpImm ..
theorem andi (rd rs1 : Reg) (imm : BitVec 12) : Statement (.andi rd rs1 imm) := fun _ => decodeWord_encodeOpImm ..

theorem opimmZero (f3 : BitVec 3) (rd rs1 : Reg) (imm : BitVec 12) : Statement (.opimmZero f3 rd rs1 imm) := by
  intro h
  have h' : ¬isOpImmFunct3 f3 = true := by simpa [Instr.wf] using h
  simp only [isOpImmFunct3, Bool.or_eq_true, beq_iff_eq] at h'
  rw [encode, decodeWord_encodeOpImm]
  split_ifs <;> first | rfl | (exfalso; tauto)

theorem lw (f3 : BitVec 3) (rd rs1 : Reg) (imm : BitVec 12) : Statement (.lw f3 rd rs1 imm) :=
  fun _ => decodeWord_encodeLoad ..

theorem sw (f3 : BitVec 3) (rs1 rs2 : Reg) (imm : BitVec 12) : Statement (.sw f3 rs1 rs2 imm) :=
  fun _ => decodeWord_encodeS ..

theorem beq (rs1 rs2 : Reg) (off : BitVec 13) : Statement (.beq rs1 rs2 off) := fun h =>
  decodeWord_encodeB off rs2 rs1 0b000 (by simpa [Instr.wf] using h)

theorem bne (f3 : BitVec 3) (rs1 rs2 : Reg) (off : BitVec 13) : Statement (.bne f3 rs1 rs2 off) := by
  intro h
  simp only [Instr.wf, Bool.and_eq_true, Bool.not_eq_true', bne_iff_ne] at h
  rw [encode, decodeWord_encodeB off rs2 rs1 f3 h.2, if_neg h.1]

theorem jal (rd : Reg) (off : BitVec 21) : Statement (.jal rd off) := fun h =>
  decodeWord_encodeJ off rd (by simpa [Instr.wf] using h)

theorem halt (word : Word) : Statement (.halt word) := by
  intro h
  have h' : ¬isDecodedOpcode (opcodeOf word) = true := by simpa [Instr.wf, opcodeOf] using h
  simp only [isDecodedOpcode, Bool.or_eq_true, beq_iff_eq, not_or] at h'
  obtain ⟨⟨⟨⟨⟨h1, h2⟩, h3⟩, h4⟩, h5⟩, h6⟩ := h'
  exact (if_neg h1).trans <| (if_neg h2).trans <| (if_neg h3).trans <| (if_neg h4).trans <| (if_neg h5).trans (if_neg h6)

end Sys2Proof.Laws.EncodeDecode
end

