-- ==== Sys2Proof/Tests/Slice0.lean ====
section
/-! SUPPORT. The model's own tests: ill-formed terms refused, words decoded, one step on small states, and a witness for the
hypotheses of every statement of Certificates/Slice0/Obligations.lean. Expected values come from 95_test_vectors.md (the
vector's id stands in each docstring) or from a hand calculation with the rule named. -/

namespace Sys2Proof.Tests

open Sys2Proof Sys2Proof.Machine

/-! ## Well-formedness: one ill-formed term for each check -/

theorem test_wf_opZero_add_pair : (Instr.opZero 0b0000000 0b000 1 2 3).wf = false := by decide
theorem test_wf_opZero_sub_pair : (Instr.opZero 0b0100000 0b000 1 2 3).wf = false := by decide
theorem test_wf_opZero_and_pair : (Instr.opZero 0b0000000 0b111 1 2 3).wf = false := by decide
theorem test_wf_opimmZero_xori_funct3 : (Instr.opimmZero 0b100 1 2 3).wf = false := by decide
theorem test_wf_beq_odd_offset : (Instr.beq 1 2 3).wf = false := by decide
theorem test_wf_bne_odd_offset : (Instr.bne 0b001 1 2 3).wf = false := by decide
theorem test_wf_bne_funct3_of_beq : (Instr.bne 0b000 1 2 4).wf = false := by decide
theorem test_wf_jal_odd_offset : (Instr.jal 1 1).wf = false := by decide
theorem test_wf_halt_decoded_opcode : (Instr.halt 0x00000033).wf = false := by decide

/-! ## Decoding: words written out field by field from the formats (30_encoding.md R82 to R86) -/

/-- E1: funct7, rs2 = 2, rs1 = 1, funct3, rd = 3, opcode. -/
theorem test_decode_add : decodeWord 0b0000000_00010_00001_000_00011_0110011 = .add 3 1 2 := by decide
/-- E2: rs2 = 7, rs1 = 6, rd = 5. -/
theorem test_decode_sub : decodeWord 0b0100000_00111_00110_000_00101_0110011 = .sub 5 6 7 := by decide
/-- E3: rs2 = 10, rs1 = 9, rd = 8. -/
theorem test_decode_xor : decodeWord 0b0000000_01010_01001_100_01000_0110011 = .xor 8 9 10 := by decide
/-- E4: rs2 = 13, rs1 = 12, rd = 11. -/
theorem test_decode_or : decodeWord 0b0000000_01101_01100_110_01011_0110011 = .or 11 12 13 := by decide
/-- E5: rs2 = 16, rs1 = 15, rd = 14. -/
theorem test_decode_and : decodeWord 0b0000000_10000_01111_111_01110_0110011 = .and 14 15 16 := by decide
/-- E19 and E22: SLL's and SRA's pairs. -/
theorem test_decode_opZero : decodeWord 0b0000000_00010_00001_001_00100_0110011 = .opZero 0b0000000 0b001 4 1 2 ∧
    decodeWord 0b0100000_00001_00001_101_00010_0110011 = .opZero 0b0100000 0b101 2 1 1 := by decide
/-- E10 and E11: the ends of the I immediate's range. -/
theorem test_decode_addi : decodeWord 0b100000000000_00000_000_00001_0010011 = .addi 1 0 0x800 ∧
    decodeWord 0b011111111111_00000_000_00001_0010011 = .addi 1 0 0x7FF := by decide
/-- E7. -/
theorem test_decode_xori : decodeWord 0b111111111111_00001_100_00010_0010011 = .xori 2 1 0xFFF := by decide
/-- E8. -/
theorem test_decode_ori : decodeWord 0b000011110000_00001_110_00011_0010011 = .ori 3 1 0x0F0 := by decide
/-- E9. -/
theorem test_decode_andi : decodeWord 0b000011111111_00001_111_00100_0010011 = .andi 4 1 0x0FF := by decide
/-- E23, and funct3 010 (the table's second OPIMM_ZERO row). -/
theorem test_decode_opimmZero : decodeWord 0b000000000011_00001_001_00101_0010011 = .opimmZero 0b001 5 1 3 ∧
    decodeWord 0b000000000011_00001_010_00101_0010011 = .opimmZero 0b010 5 1 3 := by decide
/-- E12 and E37: LW, and LB's funct3. -/
theorem test_decode_lw : decodeWord 0b000000001000_00010_010_00101_0000011 = .lw 0b010 5 2 8 ∧
    decodeWord 0b000000001000_00010_000_00101_0000011 = .lw 0b000 5 2 8 := by decide
/-- E15 and E17: the two pieces of the S immediate. -/
theorem test_decode_sw : decodeWord 0b1111111_00001_00010_010_11000_0100011 = .sw 0b010 2 1 0xFF8 ∧
    decodeWord 0b0111111_00001_00010_010_11111_0100011 = .sw 0b010 2 1 0x7FF := by decide
/-- E24, E27 and E29: bit 31 is offset bit 12, bit 7 is offset bit 11. -/
theorem test_decode_beq : decodeWord 0b0_000000_00010_00001_000_0100_0_1100011 = .beq 1 2 8 ∧
    decodeWord 0b1_000000_00000_00000_000_0000_0_1100011 = .beq 0 0 0x1000 ∧
    decodeWord 0b0_000000_00000_00000_000_0000_1_1100011 = .beq 0 0 0x800 := by decide
/-- E25 (BLT's funct3) and E26. -/
theorem test_decode_bne : decodeWord 0b0_000000_00010_00001_100_0100_0_1100011 = .bne 0b100 1 2 8 ∧
    decodeWord 0b1_111111_00000_00001_001_1100_1_1100011 = .bne 0b001 1 0 0x1FF8 := by decide
/-- E32, E34 and E36: bit 31 is offset bit 20, bit 20 is offset bit 11. -/
theorem test_decode_jal : decodeWord 0b0_0000000110_0_00000000_00001_1101111 = .jal 1 12 ∧
    decodeWord 0b1_0000000000_0_00000000_00000_1101111 = .jal 0 0x100000 ∧
    decodeWord 0b0_0000000000_1_00000000_00000_1101111 = .jal 0 0x800 := by decide
/-- E40 to E49. -/
theorem test_decode_halt : [0xFFFFFFFF#32, 0x00000000#32, 0x00000073#32, 0x00100073#32, 0x30200073#32, 0x10500073#32,
    0x0000000F#32, 0x000010B7#32, 0x00000097#32, 0x000000E7#32].all (fun w => decodeWord w = .halt w) = true := by decide

/-- Bytes, most significant first (30_encoding.md R80); a run of three is refused by name. -/
theorem test_decode_bytes : (decode [0x00, 0x20, 0x81, 0xB3, 0x99]).toOption = some (.add 3 1 2, [0x99]) ∧
    (decode [0x00, 0x20, 0x81]).toOption = none := by decide

/-- The host's view: words of opcode_table.json, the table's numbering of bits. -/
theorem test_decodeTableWord : decodeTableWord 32 0x002081B3 = some (.add 3 1 2) ∧
    decodeTableWord 32 0x00000000 = some (.halt 0x00000000) ∧ decodeTableWord 7 0x00000033 = some (.add 0 0 0) ∧
    decodeTableWord 40 0x00000033 = none := by decide

/-- The pseudo-instructions of 30_encoding.md R102: NOP is 0x00000013 (E39), and `J -8` is 0xFF9FF06F (E33). -/
theorem test_pseudo : encode Pseudo.nop = 0x00000013 ∧ encode (Pseudo.j 0x1FFFF8) = 0xFF9FF06F := by decide

/-! ## Small states -/

/-- The next state of an outcome. -/
def after : Outcome → Option State
  | .next t => some t
  | .fault _ => none
  | .refused _ => none

/-- The fault of an outcome. -/
def faultOf : Outcome → Option Fault
  | .fault f => some f
  | .next _ | .refused _ => none

/-- The refusal of an outcome. -/
def refusalOf : Outcome → Option Refusal
  | .refused r => some r
  | .next _ | .fault _ => none

theorem next_of_after {o : Outcome} (h : (after o).isSome = true) : ∃ t, o = .next t := by
  cases o with
  | next t => exact ⟨t, rfl⟩
  | fault f => cases h
  | refused r => cases h

/-- Registers r1, r2, ... with the given values. -/
def regs (vs : List Word) : RegFile :=
  (vs.zipIdx 1).foldl (fun rf p => writeReg rf (BitVec.ofNat 5 p.2) p.1) .reset

/-- IMEM of exactly these words, from address 0. -/
def code (ws : List Word) : Memory := .ofImage (ws.flatMap bytesOfWord)

/-- DMEM of 16 bytes 00 11 22 .. FF. -/
def dmem16 : Memory :=
  .ofImage [0x00, 0x11, 0x22, 0x33, 0x44, 0x55, 0x66, 0x77, 0x88, 0x99, 0xAA, 0xBB, 0xCC, 0xDD, 0xEE, 0xFF]

/-- Everything empty but the program: IF at address 0. -/
def idle (ws : List Word) : State := .resetWith { imem := code ws, dmemInit := dmem16, opimmUnmatched := .zero }

/-- The first word in EX, its operands read; ID empty; IF at the second word. -/
def inEx (ws : List Word) (rf : RegFile) : State :=
  let w := ws.headD 0
  { idle ws with
    rf
    IF := { nop := false, pc := 4 }
    EX := .ofDesc (descOf w) 0 (readReg rf (descOf w).rs1) (readReg rf (descOf w).rs2) }

/-- The first word in EX, the second in ID, IF at the third. -/
def inExId (ws : List Word) (rf : RegFile) : State :=
  { inEx ws rf with
    IF := { nop := false, pc := 8 }
    ID := { nop := false, pc := 4, instr := ws.tail.headD 0 } }

/-- An ALU result for `rd` in MEM. -/
def memResult (rd : Reg) (v : Word) : MEMLatch :=
  { nop := false, aluResult := v, storeData := 0, rd, rdMem := false, wrtMem := false, wrtRf := true }

/-- A load of `a` for `rd` in MEM. -/
def memLoad (rd : Reg) (a : Word) : MEMLatch :=
  { nop := false, aluResult := a, storeData := 0, rd, rdMem := true, wrtMem := false, wrtRf := true }

/-- A store of `v` to `a` in MEM. -/
def memStore (a v : Word) : MEMLatch :=
  { nop := false, aluResult := a, storeData := v, rd := 0, rdMem := false, wrtMem := true, wrtRf := false }

/-- A result for `rd` in WB. -/
def wbResult (rd : Reg) (v : Word) : WBLatch := { nop := false, wdata := v, rd, wrtRf := true }

/-- What EX hands to MEM when the word is in EX: result, store data, rd, and the three flags. -/
def exOut (w : Word) (vs : List Word) : Option (Word × Word × Reg × Bool × Bool × Bool) :=
  (after (step (inEx [w, 0] (regs vs)))).map fun t =>
    (t.MEM.aluResult, t.MEM.storeData, t.MEM.rd, t.MEM.rdMem, t.MEM.wrtMem, t.MEM.wrtRf)

/-- The next IF pc and the ID and EX bubbles after the word in EX. -/
def fetchAfter (w : Word) (vs : List Word) : Option (Word × Bool × Bool) :=
  (after (step (inEx [w, 0x00000013] (regs vs)))).map fun t => (t.IF.pc, t.ID.nop, t.EX.nop)

/-! ## One step per instruction -/

/-- A1: ADD r3,r1,r2, unsigned wrap. -/
theorem test_add_wraps : (exOut 0x002081B3 [0xFFFFFFFF, 1]).map (·.1) = some 0 := by decide
/-- A2: signed overflow sets nothing. -/
theorem test_add_overflow : exOut 0x002081B3 [0x7FFFFFFF, 1] = some (0x80000000, 1, 3, false, false, true) := by decide
/-- A4: SUB r3,r1,r2 (0x402081B3), a borrow: a - b, not b - a. -/
theorem test_sub_borrows : (exOut 0x402081B3 [0, 1]).map (·.1) = some 0xFFFFFFFF := by decide
/-- A7. -/
theorem test_sub_negative : (exOut 0x402081B3 [3, 0xFFFFFFFD]).map (·.1) = some 6 := by decide
/-- A8: XOR r3,r1,r2 (0x0020C1B3). -/
theorem test_xor : (exOut 0x0020C1B3 [0xF0F0F0F0, 0x0FF00FF0]).map (·.1) = some 0xFF00FF00 := by decide
/-- A10: OR r3,r1,r2 (0x0020E1B3). -/
theorem test_or : (exOut 0x0020E1B3 [0xF0F0F0F0, 0x0F0F0F0F]).map (·.1) = some 0xFFFFFFFF := by decide
/-- A11: AND r3,r1,r2 (0x0020F1B3). -/
theorem test_and : (exOut 0x0020F1B3 [0xF0F0F0F0, 0x3C3C3C3C]).map (·.1) = some 0x30303030 := by decide
/-- A19 and A22: the MUL encoding writes 0 to r2. -/
theorem test_opZero : exOut 0x02108133 [7] = some (0, 7, 2, false, false, true) := by decide
/-- A12: ADDI r1,r0,-2048. -/
theorem test_addi_minimum : (exOut 0x80000093 []).map (·.1) = some 0xFFFFF800 := by decide
/-- A13: ADDI r2,r1,1 (0x00108113). -/
theorem test_addi_overflow : (exOut 0x00108113 [0x7FFFFFFF]).map (·.1) = some 0x80000000 := by decide
/-- A15: XORI r2,r1,-1 is NOT. -/
theorem test_xori : (exOut 0xFFF0C113 [0x12345678]).map (·.1) = some 0xEDCBA987 := by decide
/-- A16: ORI r2,r1,-2048 (0x8000E113): the sign-extended immediate sets the upper bits. -/
theorem test_ori : (exOut 0x8000E113 [0x12345678]).map (·.1) = some 0xFFFFFE78 := by decide
/-- A17 and A18: ANDI r2,r1,2047 (0x7FF0F113) and -2048 (0x8000F113). -/
theorem test_andi : (exOut 0x7FF0F113 [0x12345678]).map (·.1) = some 0x678 ∧
    (exOut 0x8000F113 [0x12345678]).map (·.1) = some 0x12345000 := by decide
/-- A20: SLLI's word writes 0 to r5. -/
theorem test_opimmZero : (exOut 0x00309293 [7]).map (fun o => (o.1, o.2.2.1, o.2.2.2.2.2)) = some (0, 5, true) := by decide
/-- M6: LW r4,-4(r1): the address goes to MEM with rd_mem set. -/
theorem test_lw_address : exOut 0xFFC0A203 [0x14] = some (0x10, 0, 4, true, false, true) := by decide
/-- M2: SW r3,8(r2): address, store data, no register. -/
theorem test_sw_address : exOut 0x00312423 [0, 0x10, 0xDEADBEEF] = some (0x18, 0xDEADBEEF, 0, false, true, false) := by decide
/-- B1's BEQ r1,r2,+8 with equal registers, at pc 0. -/
theorem test_beq_taken : fetchAfter 0x00208463 [7, 7] = some (8, true, true) := by decide
/-- B2: not taken, fetching goes on. -/
theorem test_beq_not_taken : fetchAfter 0x00208463 [7, 8] = some (8, false, true) ∧
    exOut 0x00208463 [7, 8] = some (0, 8, 0, false, false, false) := by decide
/-- B3's BNE r1,r0,-8, at pc 0: the target wraps to 0xFFFFFFF8. -/
theorem test_bne_taken_wraps : fetchAfter 0xFE009CE3 [3] = some (0xFFFFFFF8, true, true) := by decide
/-- B6: BLT's word is BNE, and 2 and 1 differ. -/
theorem test_bne_blt_word : fetchAfter 0x0020C463 [2, 1] = some (8, true, true) := by decide
/-- B7: JAL r1,+12 at pc 0 links 4. -/
theorem test_jal : exOut 0x00C000EF [] = some (4, 0, 1, false, false, true) ∧
    fetchAfter 0x00C000EF [] = some (0xC, true, true) := by decide
/-- H15 and K1: HALT fetched stops fetching with the pc held; the word enters ID as a bubble. -/
theorem test_halt : (after (step (idle [0xFFFFFFFF]))).map (fun t => (t.IF, t.ID)) =
    some ({ nop := true, pc := 0 }, { nop := true, pc := 0, instr := 0xFFFFFFFF }) := by decide

/-! ## MEM and WB -/

/-- M3 (and M1's byte order): LW of address 1 takes bytes 11 22 33 44. -/
theorem test_mem_load_misaligned : (after (step { idle [0x13] with MEM := memLoad 4 1 })).map (·.WB) =
    some (wbResult 4 0x11223344) := by decide
/-- M4: SW of AABBCCDD to address 2. -/
theorem test_mem_store : (after (step { idle [0x13] with MEM := memStore 2 0xAABBCCDD })).map
    (fun t => [1, 2, 3, 4, 5, 6].map t.dmem.readByte) = some [0x11, 0xAA, 0xBB, 0xCC, 0xDD, 0x66] := by decide
/-- M10: address 12 of 16 bytes is the last; M11: address 13 faults; M12: so does 0xFFFFFFFC. -/
theorem test_mem_range : (after (step { idle [0x13] with MEM := memStore 12 12 })).isSome = true ∧
    faultOf (step { idle [0x13] with MEM := memStore 13 13 }) = some (.dataOutOfRange 13) ∧
    faultOf (step { idle [0x13] with MEM := memLoad 1 0xFFFFFFFC }) = some (.dataOutOfRange 0xFFFFFFFC) := by decide
/-- H17: MEM's fault wins over IF's. -/
theorem test_fault_order : faultOf (step { idle [] with MEM := memLoad 1 0xFFFFFFFC }) = some (.dataOutOfRange 0xFFFFFFFC) ∧
    faultOf (step (idle [])) = some (.fetchOutOfRange 0) := by decide
/-- R162: WB writes r5 and counts; a write of r0 is discarded and counts too. -/
theorem test_wb : (after (step { idle [0x13] with WB := wbResult 5 9 })).map (fun t => (readReg t.rf 5, t.retired)) =
    some (9, 1) ∧
    (after (step { idle [0x13] with WB := wbResult 0 9 })).map (fun t => (readReg t.rf 0, t.rf[0], t.retired)) =
      some (0, 0, 1) := by decide

/-! ## Forwarding, stalls, redirects -/

/-- H1: ADD r4,r3,r1 (0x00118233) takes r3 from MEM and r1 from ID. -/
theorem test_forward_mem : (after (step { inEx [0x00118233, 0] (regs [1]) with MEM := memResult 3 3 })).map
    (fun t => (t.MEM.aluResult, t.MEM.storeData)) = some (4, 1) := by decide
/-- H2: MEM wins over WB: ADD r2,r1,r1 (0x00108133). -/
theorem test_forward_priority : (after (step { inEx [0x00108133, 0] .reset with MEM := memResult 1 2, WB := wbResult 1 1 })).map
    (fun t => t.MEM.aluResult) = some 4 := by decide
/-- H3: r0 is never forwarded: ADD r2,r0,r0 (0x00000133). -/
theorem test_forward_r0 : (after (step { inEx [0x00000133, 0] .reset with MEM := memResult 0 5, WB := wbResult 0 6 })).map
    (fun t => t.MEM.aluResult) = some 0 := by decide
/-- H4: SW r3,4(r1) (0x0030A223): the immediate for the address, the forwarded value for the data. -/
theorem test_forward_store_data : (after (step { inEx [0x0030A223, 0] .reset with MEM := memResult 3 0xE })).map
    (fun t => (t.MEM.aluResult, t.MEM.storeData)) = some (4, 0xE) := by decide
/-- H5, H8 and H9: LW r1,0(r0) in EX stalls ADD r2,r1,r1, SW r1,4(r0) and BEQ r1,r0,+8 in ID. -/
theorem test_stall : [0x00108133#32, 0x00102223#32, 0x00008463#32].all
    (fun w => stall (inExId [0x00002083, w, 0] .reset)) = true := by decide
/-- H6, H10 and H11: no stall behind it for ADD r2,r3,r3, JAL r2,+8 and ADDI r1,r2,0 (rd alone matches). -/
theorem test_no_stall : [0x00318133#32, 0x0080016F#32, 0x00010093#32].all
    (fun w => !stall (inExId [0x00002083, w, 0] .reset)) = true := by decide
/-- H7: LW r0,0(r0) in EX, ADD r2,r0,r0 in ID. -/
theorem test_no_stall_r0 : stall (inExId [0x00002003, 0x00000133, 0] .reset) = false := by decide
/-- H12: ID sees WB's write of the same cycle. -/
theorem test_same_cycle_read :
    (after (step { inExId [0x13, 0x00108133, 0] .reset with WB := wbResult 1 9 })).map (fun t => (t.EX.rv1, t.EX.rv2)) =
      some (9, 9) := by decide
/-- H14: a redirect restarts a stopped IF: BNE r1,r0,-8 with r1 = 3. -/
theorem test_redirect_restarts_fetch : (after (step { inEx [0xFE009CE3] (regs [3]) with IF := { nop := true, pc := 4 } })).map
    (fun t => (t.IF.nop, t.IF.pc)) = some (false, 0xFFFFFFF8) := by decide
/-- H16: all five latches empty. -/
theorem test_all_nop : (after (step { idle [0] with IF := { nop := true, pc := 0 } })).map (fun t => (t.cycle, t.halted)) =
    some (1, true) := by decide
/-- X6 and X7: SLLI's word in ID, under `refuse` and under `zero`. -/
theorem test_refuse : refusalOf (step
      { inExId [0x13, 0x00309293, 0] .reset with
        params := { imem := code [0x13, 0x00309293, 0], dmemInit := dmem16, opimmUnmatched := .refuse } }) =
      some (.unmatchedOpImm 4 0x00309293) ∧
    (after (step (inExId [0x13, 0x00309293, 0] .reset))).map (fun t => t.EX.op) = some .OPIMM_ZERO := by decide

/-! ## The reference, images, reset, placing an instruction -/

/-- R199 on ADDI r1,r0,5 and on HALT. -/
theorem test_ref_step : refStep (code [0x00500093, 0]) (ArchState.reset { imem := code [], dmemInit := dmem16, opimmUnmatched := .zero }) =
      .next { pc := 4, rf := regs [5], dmem := dmem16 } ∧
    refStep (code [0]) { pc := 0, rf := .reset, dmem := dmem16 } = .halt := by decide
/-- W1: the document's scenario takes the reference 4 cycles and leaves r3 = 8. -/
theorem test_ref_run : (refRun (code [0x00500093, 0x00300113, 0x002081B3, 0xFFFFFFFF]) 9
    { pc := 0, rf := .reset, dmem := dmem16 }).map (fun r => (readReg r.1.rf 3, r.2)) = some (8, 4) := by decide
/-- R68: line k is the byte at address k. -/
theorem test_image : (State.launch [0xFF, 0xFE] [0x00, 0x2A] .zero).params.imem.readByte 0 = 0xFF ∧
    (State.launch [0xFF, 0xFE] [0x00, 0x2A] .zero).dmem.readByte 1 = 0x2A ∧
    (State.launch [0xFF, 0xFE] [0x00, 0x2A] .zero).dmem.size = 2 := by decide

/-- D20: a host that sizes DMEM at 8 gets 8 bytes, with the image at address 0. -/
theorem test_image_sized : (State.launchSized 8 [0xFF] [0x00, 0x2A] .zero).dmem.size = 8 ∧
    (State.launchSized 8 [0xFF] [0x00, 0x2A] .zero).dmem.readByte 1 = 0x2A := by decide
/-- T0, at `State.reset`. -/
theorem test_reset : State.reset.IF = { nop := false, pc := 0 } ∧ State.reset.halted = false ∧ State.reset.cycle = 0 := by
  decide
/-- A word of each row of the table (its fixed bits), placed in the reset state, is what the next step runs. -/
theorem test_placed_runs : [0x00000033, 0x40000033, 0x00004033, 0x00006033, 0x00007033, 0x00001033, 0x00000013, 0x00004013,
    0x00006013, 0x00007013, 0x00001013, 0x00002013, 0x00000003, 0x00000023, 0x00000063, 0x00001063, 0x0000006F, 0x00000000].all
    (fun w => (running (State.reset.withFetchWord 32 w)).map Instr.desc = some (descOf (BitVec.ofNat 32 w))) = true := by
  decide
/-- Placing keeps the invariant, and a placed HALT and a placed ADDI take a next state. -/
theorem test_placed_steps : Invariant (State.reset.withFetchWord 32 0x00500093) ∧
    (after (step (State.reset.withFetchWord 32 0x00500093))).map (fun t => t.MEM.aluResult) = some 5 ∧
    (after (step (State.reset.withFetchWord 32 0))).map (fun t => t.IF.nop) = some true := by decide

/-! ## Witnesses: states and operands that meet the hypotheses of each statement

Named after the statement; where it has several clauses, each clause has its own state, at a boundary of its range. -/

set_option synthInstance.maxSize 2000

/-- The greatest branch and jump offsets, the OP_ZERO pair next to SUB's. -/
theorem witness_DecodeReadsBackEncodedBytes : (Instr.beq 31 31 0x1FFE).wf = true ∧ (Instr.jal 31 0x1FFFFE).wf = true ∧
    (Instr.opZero 0b0100000 0b001 31 31 31).wf = true ∧ (Instr.halt 0xFFFFFFFF).wf = true := by decide

/-- A word of each of the five opcodes, each immediate at its least value. -/
theorem witness_ImmediatesBitByBit : opcodeOf 0x80000093 = 0b0010011 ∧ opcodeOf 0x80002083 = 0b0000011 ∧
    opcodeOf 0x80112023 = 0b0100011 ∧ opcodeOf 0x80000063 = 0b1100011 ∧ opcodeOf 0x8000006F = 0b1101111 := by decide

/-- LUI, AUIPC, JALR, FENCE and ECALL. -/
theorem witness_HaltIsEveryOtherOpcode : opcodeOf 0x000010B7 = 0b0110111 ∧ opcodeOf 0x00000097 = 0b0010111 ∧
    opcodeOf 0x000000E7 = 0b1100111 ∧ opcodeOf 0x0000000F = 0b0001111 ∧ opcodeOf 0x00000073 = 0b1110011 := by decide

/-- The ends of the two halves of 12 bits, and the widths 1 and 32. -/
theorem witness_SignExtensionValue : (0x7FF#12).getLsbD (12 - 1) = false ∧ (0x800#12).getLsbD (12 - 1) = true ∧
    (1#1).getLsbD (1 - 1) = true ∧ (0x80000000#32).getLsbD (32 - 1) = true := by decide

/-- An ADD in EX; the same under the invariant; a HALT at the end of IMEM. -/
theorem witness_StepRunsTheDecodedInstruction :
    (inEx [0x002081B3, 0] (regs [1, 2])).EX.holds (.add 3 1 2) ∧
    (Invariant (inEx [0x002081B3, 0] (regs [1, 2])) ∧ (inEx [0x002081B3, 0] (regs [1, 2])).EX.nop = false) ∧
    ((idle [0xFFFFFFFF]).IF.nop = false ∧ (idle [0xFFFFFFFF]).params.imem.inRange 0 ∧
      (idle [0xFFFFFFFF]).params.imem.readWord 0 = 0xFFFFFFFF ∧ isHalt 0xFFFFFFFF = true) := by decide

/-- The parameters of `idle` with unmatched OP-IMM words refused. -/
def refuseIdle (ws : List Word) (s : State) : State :=
  { s with params := { imem := code ws, dmemInit := dmem16, opimmUnmatched := .refuse } }

/-- Halted; a load one byte past the last word; SLLI's word refused; a fetch past a two-word image; a safe cycle. -/
theorem witness_StepOutcomeByAge :
    { idle [0] with halted := true }.halted = true ∧
    ((idle [0]).halted = false ∧ ¬MemSafe { idle [0] with MEM := memLoad 1 13 }) ∧
    (let s := refuseIdle [0x13, 0x00309293, 0] (inExId [0x13, 0x00309293, 0] .reset);
      s.halted = false ∧ MemSafe s ∧ ¬IdSafe (exStage s).redirect s) ∧
    (let s := inExId [0x13, 0x13] .reset;
      s.halted = false ∧ MemSafe s ∧ IdSafe (exStage s).redirect s ∧ ¬FetchSafe s) ∧
    CycleSafe { idle [0] with MEM := memLoad 1 12 } := by decide

/-- Each instruction in EX with its sources produced in MEM and in WB, and the pairs next to the five that select. -/
theorem witness_RegisterRegisterResults :
    (let p := fun w => { inEx [w, 0] (regs [1, 2]) with MEM := memResult 1 5, WB := wbResult 2 6 };
      Executes (.add 3 1 2) (p 0x002081B3) ∧ Executes (.sub 3 1 2) (p 0x402081B3) ∧ Executes (.xor 3 1 2) (p 0x0020C1B3) ∧
      Executes (.or 3 1 2) (p 0x0020E1B3) ∧ Executes (.and 3 1 2) (p 0x0020F1B3) ∧
      Executes (.opZero 0b0000001 0b000 3 1 2) (p 0x022081B3)) ∧
    (0b0100000#7, 0b001#3) ∉ [(0b0000000#7, 0b000#3), (0b0100000#7, 0b000#3), (0b0000000#7, 0b100#3), (0b0000000#7, 0b110#3),
        (0b0000000#7, 0b111#3)] := by decide

/-- The same with rd = 0: the form whose write is discarded. -/
theorem witness_results_to_r0 : Executes (.add 0 1 2) (inEx [0x00208033, 0] (regs [1, 2])) ∧
    Executes (.addi 0 1 5) (inEx [0x00508013, 0] (regs [1])) ∧ Executes (.jal 0 8) (inEx [0x0080006F, 0] .reset) ∧
    Executes (.lw 0b010 0 0 0) (inEx [0x00002003, 0] .reset) := by decide

theorem witness_RegisterImmediateResults :
    Executes (.addi 1 1 0x800) { inEx [0x80008093, 0] (regs [9]) with MEM := memResult 1 5, WB := wbResult 1 6 } ∧
    Executes (.xori 2 1 0xFFF) (inEx [0xFFF0C113, 0] (regs [9])) ∧ Executes (.ori 3 1 0x0F0) (inEx [0x0F00E193, 0] (regs [9])) ∧
    Executes (.andi 4 1 0x0FF) (inEx [0x0FF0F213, 0] (regs [9])) := by decide

/-- In EX; in ID under `refuse`; in ID under `zero`, for funct3 001 and 101. -/
theorem witness_UnmatchedOpImmIsZeroOrRefused :
    Executes (.opimmZero 0b001 5 1 3) (inEx [0x00309293, 0] (regs [7])) ∧
    (let s := refuseIdle [0x13, 0x00309293, 0] (inExId [0x13, 0x00309293, 0] .reset);
      s.halted = false ∧ MemSafe s ∧ (exStage s).redirect = none ∧ stall s = false ∧ s.ID.nop = false ∧
      s.ID.instr = 0x003#12 ++ 1#5 ++ 0b001#3 ++ 5#5 ++ 0b0010011#7 ∧ s.params.opimmUnmatched = .refuse) ∧
    (let s := inExId [0x13, 0x0030D293, 0] .reset;
      s.halted = false ∧ MemSafe s ∧ (exStage s).redirect = none ∧ stall s = false ∧ s.ID.nop = false ∧
      s.ID.instr = 0x003#12 ++ 1#5 ++ 0b101#3 ++ 5#5 ++ 0b0010011#7 ∧ s.params.opimmUnmatched = .zero ∧ FetchSafe s) := by
  decide

/-- LB's word: the base unlike rd, and a base produced by the instruction in MEM. -/
theorem witness_LoadStoreEffectiveAddress :
    (Executes (.lw 0b000 5 2 8) { inEx [0x00810283, 0] .reset with MEM := memResult 2 4 } ∧ (2 : Reg) ≠ 5) ∧
    Executes (.sw 0b010 2 1 0xFF8) (inEx [0xFE112C23, 0] (regs [7, 16])) := by decide

/-- LW r4,0(r1) of the last word (12 of 16 bytes) and one byte past it. -/
theorem witness_LoadWordResult :
    (let s := inEx [0x0000A203, 0] (regs [12]);
      Executes (.lw 0b010 4 1 0) s ∧ s.dmem.inRange (progReg s 1 + (0x000#12).signExtend 32)) ∧
    (let s := inEx [0x0000A203, 0] (regs [13]);
      Executes (.lw 0b010 4 1 0) s ∧ ¬s.dmem.inRange (progReg s 1 + (0x000#12).signExtend 32)) := by decide

/-- SW r5,0(r1) to the last word and one byte past it. -/
theorem witness_StoreWordResult :
    (let s := inEx [0x0050A023, 0] (regs [12, 0, 0, 0, 0xAABBCCDD]);
      Executes (.sw 0b010 1 5 0) s ∧ s.dmem.wf = true ∧ s.dmem.inRange (progReg s 1 + (0x000#12).signExtend 32)) ∧
    (let s := inEx [0x0050A023, 0] (regs [13, 0, 0, 0, 0xAABBCCDD]);
      Executes (.sw 0b010 1 5 0) s ∧ s.dmem.wf = true ∧ ¬s.dmem.inRange (progReg s 1 + (0x000#12).signExtend 32)) := by decide

/-- Taken and not taken, for both; the registers differ in bit 31 alone. -/
theorem witness_BranchResults : (0x0008#13).getLsbD 0 = false ∧
    (let s := inEx [0x00208463, 0] (regs [7, 7]); Executes (.beq 1 2 8) s ∧ progReg s 1 = progReg s 2) ∧
    (let s := inEx [0x00208463, 0] (regs [7, 0x80000007]); Executes (.beq 1 2 8) s ∧ ¬progReg s 1 = progReg s 2) ∧
    (let s := inEx [0x00209463, 0] (regs [7, 0x80000007]); Executes (.bne 0b001 1 2 8) s ∧ progReg s 1 ≠ progReg s 2) ∧
    (let s := inEx [0x0020F463, 0] (regs [7, 7]); Executes (.bne 0b111 1 2 8) s ∧ ¬progReg s 1 ≠ progReg s 2) := by decide;

theorem witness_JumpAndLinkResult : Executes (.jal 1 12) (inEx [0x00C000EF, 0] .reset) := by decide

/-- A HALT fetched behind a JAL in EX, behind a load-use stall, and with EX empty. -/
theorem witness_HaltResult : isHalt 0xFFFFFFFF = true ∧
    (let s := inEx [0x00C000EF, 0xFFFFFFFF] .reset;
      s.IF.nop = false ∧ s.halted = false ∧ MemSafe s ∧ IdSafe (exStage s).redirect s ∧ (exStage s).redirect = some 12) ∧
    (let s := inExId [0x00002083, 0x00108133, 0xFFFFFFFF] .reset;
      s.IF.nop = false ∧ s.halted = false ∧ MemSafe s ∧ IdSafe (exStage s).redirect s ∧ (exStage s).redirect = none ∧
        stall s = true) ∧
    (let s := { idle [0xFFFFFFFF] with MEM := memStore 12 1 };
      s.IF.nop = false ∧ s.halted = false ∧ MemSafe s ∧ IdSafe (exStage s).redirect s ∧ (exStage s).redirect = none ∧
        stall s = false ∧ s.EX.nop = true) := by decide

/-- A store one byte past the last word; an empty MEM; a load of the last word. -/
theorem witness_MemStageAccess :
    ((idle [0]).halted = false ∧ ¬MemSafe { idle [0] with MEM := memStore 13 1 }) ∧
    ((after (step (idle [0]))).isSome = true ∧ (idle [0]).MEM.nop = true) ∧
    ((after (step { idle [0] with MEM := memLoad 4 12 })).isSome = true ∧ (memLoad 4 12).nop = false) := by decide

theorem witness_OnlyWbWritesRegisters :
    (∃ t, exec (.add 3 1 2) { inEx [0x002081B3, 0] (regs [1, 2]) with WB := wbResult 31 9 } = .next t) ∧
    (∃ t, step { idle [0] with WB := wbResult 0 9 } = .next t) :=
  ⟨next_of_after (by decide), next_of_after (by decide)⟩

/-- Without a store, and with a store to the last word, byte 11 being outside it. -/
theorem witness_EveryMeaningLeavesTheRest :
    (∃ t, exec (.add 3 1 2) (inEx [0x002081B3, 0] (regs [1, 2])) = .next t) ∧
    (∃ t, step { idle [0] with MEM := memStore 12 1 } = .next t) ∧ (11 < (memStore 12 1).aluResult.toNat) :=
  ⟨next_of_after (by decide), next_of_after (by decide), by decide⟩

/-- A load's result in WB and an ALU result in MEM, for the two sources. -/
theorem witness_ForwardedOperandsAreCurrent :
    (let s := { inEx [0x002081B3, 0] (regs [1, 2]) with MEM := memResult 1 5, WB := wbResult 2 6 };
      s.EX.nop = false ∧ OperandsCurrent s) := by decide

/-- A redirect, an empty ID, a stall; and a decoded instruction behind WB's write. -/
theorem witness_NextExLatch :
    ((after (step (inEx [0x00C000EF, 0] .reset))).isSome = true ∧ (exStage (inEx [0x00C000EF, 0] .reset)).redirect ≠ none) ∧
    ((after (step (idle [0]))).isSome = true ∧ (idle [0]).ID.nop = true) ∧
    ((after (step (inExId [0x00002083, 0x00108133, 0] .reset))).isSome = true ∧
      stall (inExId [0x00002083, 0x00108133, 0] .reset) = true) ∧
    (let s := { inExId [0x13, 0x00108133, 0] .reset with WB := wbResult 1 9 };
      (after (step s)).isSome = true ∧ (exStage s).redirect = none ∧ s.ID.nop = false ∧ stall s = false) := by decide

/-- The five rows of the table. -/
theorem witness_NextFetchTable :
    ((after (step (inEx [0x00C000EF, 0] .reset))).isSome = true ∧ (exStage (inEx [0x00C000EF, 0] .reset)).redirect = some 12) ∧
    (let s := inExId [0x00002083, 0x00108133, 0] .reset;
      (after (step s)).isSome = true ∧ (exStage s).redirect = none ∧ stall s = true) ∧
    (let s := { idle [0] with IF := { nop := true, pc := 0 } };
      (after (step s)).isSome = true ∧ (exStage s).redirect = none ∧ stall s = false ∧ s.IF.nop = true) ∧
    (let s := idle [0];
      (after (step s)).isSome = true ∧ (exStage s).redirect = none ∧ stall s = false ∧ s.IF.nop = false ∧
        (descOf (s.params.imem.readWord s.IF.pc)).op = .HALT) ∧
    (let s := idle [0x13];
      (after (step s)).isSome = true ∧ (exStage s).redirect = none ∧ stall s = false ∧ s.IF.nop = false ∧
        (descOf (s.params.imem.readWord s.IF.pc)).op ≠ .HALT) := by decide

/-- LW r31,0(r0) with ADD r2,r31,r31 behind it. -/
theorem witness_StallHoldsIfAndId :
    (let s := inExId [0x00002F83, 0x01FF8133, 0] .reset;
      stall s = true ∧ ExDecoded s ∧ CycleSafe s) := by decide

/-- A stall and a redirect, each with a next state. -/
theorem witness_StallAndRedirectExclusive :
    (let s := inExId [0x00002083, 0x00108133, 0] .reset;
      ExDecoded s ∧ (after (step s)).isSome = true ∧ stall s = true) ∧
    (let s := inEx [0x00C000EF, 0] .reset;
      ExDecoded s ∧ (after (step s)).isSome = true ∧ (exStage s).redirect ≠ none) := by decide

/-- JAL r0,+4: the last word of IMEM; JAL r0,+8: outside it. -/
theorem witness_RedirectFetchesTheTarget :
    (let s := inEx [0x0040006F, 0] .reset;
      ExDecoded s ∧ (exStage s).redirect = some 4 ∧ CycleSafe s ∧ s.params.imem.inRange 4) ∧
    (let s := inEx [0x0080006F, 0] .reset;
      ExDecoded s ∧ (exStage s).redirect = some 8 ∧ CycleSafe s ∧ ¬s.params.imem.inRange 8) := by decide

/-- A taken BEQ with a store behind it in ID, and with a stopped fetch and an empty ID. -/
theorem witness_FlushedInstructionsLeaveNoTrace :
    (let s := inExId [0x00208463, 0x00102223, 0] (regs [7, 7]);
      (exStage s).redirect ≠ none ∧ (after (step s)).isSome = true ∧
        (after (step { s with IF := { nop := true, pc := 0 }, ID := .bubble })).isSome = true) := by decide

/-- Empty, and empty but for WB. -/
theorem witness_FinalCycleHalts :
    (let s := { idle [0] with IF := { nop := true, pc := 0 } };
      s.halted = false ∧ allNop s = true) ∧
    (let s := { idle [0] with IF := { nop := true, pc := 0 }, WB := wbResult 1 9 };
      s.halted = false ∧ allNop s = false ∧ (after (step s)).isSome = true) := by decide

theorem witness_StoresNeverReachImem : ∃ t, run 1 { idle [0] with MEM := memStore 0 0x00500093 } = .next t :=
  next_of_after (by decide)

/-- A store to address 12 in MEM, a load of it in EX. -/
theorem witness_LoadAfterStoreReadsBack :
    (let s := { inEx [0x00C02083, 0] .reset with MEM := memStore 12 0xAABBCCDD };
      s.dmem.wf = true ∧ s.MEM.nop = false ∧ s.MEM.wrtMem = true ∧
        (after (step s)).any (fun t => t.MEM.nop = false ∧ t.MEM.rdMem = true ∧ t.MEM.aluResult = s.MEM.aluResult ∧
          (after (step t)).isSome = true) = true) := by decide

/-- The last address that leaves room for the byte after the word. -/
theorem witness_OverlappingLoadMixesBytes : dmem16.wf = true ∧ (11 : Word).toNat + 4 < dmem16.size := by decide

/-- A store in MEM, register writes, an instruction in ID and a fetch; a load in MEM; and a fault of the store. -/
theorem witness_PortsCarryEveryAccess :
    (let s := { inExId [0x13, 0x00108133, 0] .reset with MEM := memStore 12 1, WB := wbResult 1 9 };
      (after (step s)).any (fun t => t.EX.nop = false) = true ∧ (exStage s).redirect = none ∧ stall s = false ∧
        s.IF.nop = false ∧ (ports s).imemAddr = some 8 ∧ MemOneAccess s) ∧
    (let s := { idle [0] with MEM := memLoad 4 12 };
      (after (step s)).isSome = true ∧ s.MEM.nop = false ∧ s.MEM.rdMem = true ∧ (ports s).dmemRead = some 12 ∧
        MemOneAccess s) ∧
    (let s := { idle [0] with MEM := memStore 13 1 };
      (ports s).fault = some (.dataOutOfRange 13)) := by decide

theorem witness_ProgramOrderStateIsCommitted :
    (let s := { idle [0x13, 0] with MEM := memLoad 4 12, WB := wbResult 1 9 };
      (after (step s)).any (fun t => (after (step t)).isSome) = true) := by decide

/-- The greatest memories. -/
theorem witness_ResetMeetsInvariant : ParamsWf Params.reset ∧
    ParamsWf { imem := code [0x13], dmemInit := dmem16, opimmUnmatched := .refuse } := by decide

/-- Under the invariant: with all latches in use, at a stall, at a redirect, and empty. -/
theorem witness_StepKeepsInvariant :
    (let s := { inExId [0x002081B3, 0x00108133, 0] (regs [1, 2]) with MEM := memResult 1 5, WB := wbResult 2 6 };
      Invariant s ∧ (after (step s)).isSome = true) ∧
    (let s := inExId [0x00002083, 0x00108133, 0] .reset;
      Invariant s ∧ (after (step s)).isSome = true) ∧
    (let s := inEx [0x00C000EF, 0] .reset;
      Invariant s ∧ (after (step s)).isSome = true) ∧
    (let s := { idle [0] with IF := { nop := true, pc := 0 } };
      Invariant s ∧ (after (step s)).isSome = true) := by decide

/-- EX empty; a store in EX; a load in EX whose address is outside DMEM. -/
theorem witness_StepRefinesReference :
    (let s := { idle [0x13] with MEM := memResult 1 5 };
      Invariant s ∧ (after (step s)).isSome = true ∧ s.EX.nop = true) ∧
    (let s := inEx [0x0050A023, 0] (regs [12]);
      Invariant s ∧ (after (step s)).isSome = true ∧ s.EX.nop = false) ∧
    (let s := inEx [0x0000A203, 0] (regs [13]);
      Invariant s ∧ (after (step s)).isSome = true ∧ s.EX.nop = false) := by decide

/-- The last cycle, and K1: HALT alone, two cycles from reset. -/
theorem witness_HaltedRunEqualsReference :
    (let s := { idle [0] with IF := { nop := true, pc := 0 } };
      Invariant s ∧ s.halted = false ∧ (after (run 1 s)).any (fun t => t.halted) = true) ∧
    (let s := idle [0];
      Invariant s ∧ s.halted = false ∧ (after (run 2 s)).any (fun t => t.halted) = true) := by decide

/-- No step, at a HALT; and one step, JAL r0,+8 to a HALT. -/
theorem witness_PipelineHaltsWithinBound :
    (let s := idle [0];
      Invariant s ∧ s.halted = false ∧ refSteps s.params.imem 0 (progState s) = some (progState s) ∧
        refStep s.params.imem (progState s) = .halt) ∧
    (let s := idle [0x0080006F, 0x13, 0];
      Invariant s ∧ s.halted = false ∧ (refSteps s.params.imem 1 (progState s)).any
        (fun a => a.pc = 8 ∧ refStep s.params.imem a = .halt) = true) := by decide

theorem witness_DrainEndsHalted :
    (let s := { idle [0] with IF := { nop := true, pc := 0 }, MEM := memStore 12 1, WB := wbResult 1 9 };
      s.halted = false ∧ s.IF.nop = true ∧ s.ID.nop = true ∧ s.EX.nop = true ∧ s.MEM.nop = false ∧ MemSafe s) := by decide

/-- P1's counters, 8 cycles and 3 retired. -/
theorem witness_CpiTimesIpcIsOne :
    (let s := { idle [0] with cycle := 8, retired := 3 };
      s.retired ≠ 0 ∧ s.cycle ≠ 0) := by decide

/-- Another IMEM, register file and data memory that agree where the cycle reads: at the fetch pc 8, in r1, at the load's 12. -/
theorem witness_StepReadsOnlyThroughPorts :
    (let s := { inExId [0x13, 0x00108133, 0] .reset with MEM := memLoad 4 12, WB := wbResult 3 9 };
      let imem := code [1, 2, 0, 3];
      let rf := regs [0, 7];
      let dmem := dmem16.writeWord 0 5;
      (after (step s)).isSome = true ∧
        (ports s).imemAddr = some 8 ∧ imem.inRange 8 ∧ imem.readWord 8 = s.params.imem.readWord 8 ∧
        (ports s).rfRead = some (1, 1) ∧ readReg rf 1 = readReg s.rf 1 ∧
        (ports s).dmemRead = some 12 ∧ dmem.inRange 12 ∧ dmem.readWord 12 = s.dmem.readWord 12 ∧
        (ports s).dmemWrite = none) ∧
    (let s := { idle [0] with MEM := memStore 12 1 };
      (after (step s)).isSome = true ∧ (ports s).dmemWrite = some (12, 1) ∧ dmem16.inRange 12) := by decide

end Sys2Proof.Tests
end

section
/-! PROOFS. Stores are never seen by instruction fetch (20_memory.md R72): whatever instruction a step runs, the step is one
cycle, a cycle commits a state with the same parameters, and the fetch reads IMEM only. -/

namespace Sys2Proof.Machine

/-! ## What a step can do -/

/-- Every meaning is one cycle, in which the instruction chooses only EX's output and, for HALT, the word fetched. -/
theorem exec_eq_cycleWith (i : Instr) (s : State) : ∃ fetch ex, exec i s = cycleWith fetch ex s := by
  cases i with
  | halt word => exact ⟨.ok (some word), exStage s, rfl⟩
  | jal rd off => exact ⟨ifFetch s, _, by rw [exec, execJal, cycle]⟩
  | _ => exact ⟨ifFetch s, _, rfl⟩

theorem step_eq_cycleWith (s : State) : ∃ fetch ex, step s = cycleWith fetch ex s := by
  unfold step
  cases running s with
  | some i => exact exec_eq_cycleWith i s
  | none => exact ⟨ifFetch s, exStage s, rfl⟩

/-- A step that gives a next state starts from a running state whose MEM and ID stages are safe, and commits a cycle's state. -/
theorem step_next {s t : State} (h : step s = .next t) :
    ∃ fetched ex, s.halted = false ∧ MemSafe s ∧ IdSafe ex.redirect s ∧ t = nextState fetched ex s := by
  obtain ⟨fetch, ex, hc⟩ := step_eq_cycleWith s
  obtain ⟨hh, hm, hi, fetched, -, ht⟩ := cycleWith_next (hc.symm.trans h)
  exact ⟨fetched, ex, hh, hm, hi, ht⟩

theorem step_params {s t : State} (h : step s = .next t) : t.params = s.params := by
  obtain ⟨fetched, ex, -, -, -, rfl⟩ := step_next h
  exact nextState_params fetched ex s

/-! ## Along a run -/

/-- What every step keeps, every run keeps. -/
theorem run_preserves {P : State → Prop} (hstep : ∀ s t, step s = .next t → P s → P t) {n : Nat} {s t : State}
    (h : run n s = .next t) (hs : P s) : P t := by
  induction n generalizing s with
  | zero =>
    cases h
    exact hs
  | succ n ih =>
    cases hu : step s with
    | next u => exact ih (run_next hu n ▸ h) (hstep s u hu hs)
    | fault f => cases (run_fault hu n).symm.trans h
    | refused r => cases (run_refused hu n).symm.trans h

theorem run_params {n : Nat} {s t : State} (h : run n s = .next t) : t.params = s.params :=
  run_preserves (P := fun u => u.params = s.params) (fun _ _ hu hp => (step_params hu).trans hp) h rfl

/-! ## The fetch -/

/-- The fetch reads the IF latch and IMEM, so another data memory gives the same word or the same fault. -/
@[simp] theorem ifFetch_dmem (s : State) (dmem : Memory) : ifFetch { s with dmem } = ifFetch s := rfl

/-- Settles O33: every step, hence every run, keeps the parameters, and the fetch does not read the data memory. -/
theorem storesNeverReachImem : Obligations.StoresNeverReachImem :=
  ⟨fun _ _ _ => run_params, ifFetch_dmem⟩

end Sys2Proof.Machine
end

section
/-! PROOFS. What the opcode alone decides of a decoded word (30_encoding.md R91, R92, R95), and the four immediates bit by
bit with their ranges (R87 to R90). -/

namespace Sys2Proof

/-! ## The opcode selects the family (R91, R92) -/

theorem decodeWord_of_opR {w : Word} (h : opcodeOf w = opR) : decodeWord w = decodeR w := if_pos h

theorem decodeWord_of_opImm {w : Word} (h : opcodeOf w = opImm) : decodeWord w = decodeOpImm w := by
  simp [decodeWord, h, opR, opImm]

theorem decodeWord_of_opLoad {w : Word} (h : opcodeOf w = opLoad) :
    decodeWord w = .lw (funct3Of w) (rdOf w) (rs1Of w) (immIOf w) := by
  simp [decodeWord, h, opR, opImm, opLoad]

theorem decodeWord_of_opStore {w : Word} (h : opcodeOf w = opStore) :
    decodeWord w = .sw (funct3Of w) (rs1Of w) (rs2Of w) (immSOf w) := by
  simp [decodeWord, h, opR, opImm, opLoad, opStore]

theorem decodeWord_of_opBranch {w : Word} (h : opcodeOf w = opBranch) : decodeWord w = decodeBranch w := by
  simp [decodeWord, h, opR, opImm, opLoad, opStore, opBranch]

theorem decodeWord_of_opJal {w : Word} (h : opcodeOf w = opJal) : decodeWord w = .jal (rdOf w) (immJOf w) := by
  simp [decodeWord, h, opR, opImm, opLoad, opStore, opBranch, opJal]

theorem isDecodedOpcode_iff_mem (opcode : BitVec 7) :
    isDecodedOpcode opcode = true ↔ opcode ∈ [opR, opImm, opLoad, opStore, opBranch, opJal] := by
  simp [isDecodedOpcode, opR, opImm, opLoad, opStore, opBranch, opJal, or_assoc]

/-- A HALT word is a well-formed instruction, so decoding gives it back whole. -/
theorem decodeWord_of_not_decoded {w : Word} (h : isDecodedOpcode (opcodeOf w) = false) : decodeWord w = .halt w :=
  Laws.EncodeDecode.halt w (by rw [Instr.wf, ← opcodeOf, h]; rfl)

/-! ## HALT (R95) -/

theorem decodeR_op_ne_halt (w : Word) : (decodeR w).desc.op ≠ .HALT := by
  unfold decodeR
  split_ifs <;> simp [Instr.desc, Desc.rType]

theorem decodeOpImm_op_ne_halt (w : Word) : (decodeOpImm w).desc.op ≠ .HALT := by
  unfold decodeOpImm
  split_ifs <;> simp [Instr.desc, Desc.opImm]

theorem decodeBranch_op_ne_halt (w : Word) : (decodeBranch w).desc.op ≠ .HALT := by
  unfold decodeBranch
  split_ifs <;> simp [Instr.desc, Desc.branch]

theorem descOf_op_ne_halt {w : Word} (h : isDecodedOpcode (opcodeOf w) = true) : (descOf w).op ≠ .HALT := by
  simp only [isDecodedOpcode_iff_mem, List.mem_cons, List.not_mem_nil, or_false] at h
  unfold descOf
  obtain h | h | h | h | h | h := h
  · rw [decodeWord_of_opR h]
    exact decodeR_op_ne_halt w
  · rw [decodeWord_of_opImm h]
    exact decodeOpImm_op_ne_halt w
  · simp [decodeWord_of_opLoad h, Instr.desc]
  · simp [decodeWord_of_opStore h, Instr.desc]
  · rw [decodeWord_of_opBranch h]
    exact decodeBranch_op_ne_halt w
  · simp [decodeWord_of_opJal h, Instr.desc]

theorem isHalt_iff_not_decoded (w : Word) : isHalt w = true ↔ isDecodedOpcode (opcodeOf w) = false := by
  rw [isHalt, decide_eq_true_iff]
  constructor
  · intro h
    exact Bool.eq_false_iff.mpr fun hd => descOf_op_ne_halt hd h
  · intro h
    rw [descOf, decodeWord_of_not_decoded h]
    rfl

/-- Settles O6: the six decoded opcodes give no HALT, and any other opcode gives the word itself as a HALT. -/
theorem haltIsEveryOtherOpcode : Obligations.HaltIsEveryOtherOpcode := by
  have undecoded : ∀ opcode ∈ [0b0110111#7, 0b0010111#7, 0b1100111#7, 0b0001111#7, 0b1110011#7],
      isDecodedOpcode opcode = false := by decide
  refine ⟨fun w => ?_, fun w h => decodeWord_of_not_decoded (undecoded _ h),
    decodeWord_of_not_decoded (by decide), decodeWord_of_not_decoded (by decide)⟩
  exact (isHalt_iff_not_decoded w).trans (Bool.eq_false_iff.trans (not_congr (isDecodedOpcode_iff_mem _)))

/-! ## Which immediate a descriptor holds (R91) -/

theorem descOf_imm_of_opImm {w : Word} (h : opcodeOf w = opImm) : (descOf w).imm = sext (immIOf w) := by
  rw [descOf, decodeWord_of_opImm h]
  unfold decodeOpImm
  split_ifs <;> rfl

theorem descOf_imm_of_opLoad {w : Word} (h : opcodeOf w = opLoad) : (descOf w).imm = sext (immIOf w) := by
  rw [descOf, decodeWord_of_opLoad h]
  rfl

theorem descOf_imm_of_opStore {w : Word} (h : opcodeOf w = opStore) : (descOf w).imm = sext (immSOf w) := by
  rw [descOf, decodeWord_of_opStore h]
  rfl

theorem descOf_imm_of_opBranch {w : Word} (h : opcodeOf w = opBranch) : (descOf w).imm = sext (immBOf w) := by
  rw [descOf, decodeWord_of_opBranch h]
  unfold decodeBranch
  split_ifs <;> rfl

theorem descOf_imm_of_opJal {w : Word} (h : opcodeOf w = opJal) : (descOf w).imm = sext (immJOf w) := by
  rw [descOf, decodeWord_of_opJal h]
  rfl

/-! ## Sign extension (00_scope.md R10) -/

/-- Below the sign bit the bits are the value's, and from it up they are the sign bit. -/
theorem getLsbD_sext {n : Nat} (v : BitVec (n + 1)) {j : Nat} (hj : j < 32) :
    (sext v).getLsbD j = if j < n then v.getLsbD j else v.getLsbD n := by
  rw [sext, BitVec.getLsbD_signExtend, BitVec.msb_eq_getLsbD_last]
  grind

theorem toInt_sext {n : Nat} (v : BitVec n) (h : n ≤ 32) : (sext v).toInt = v.toInt :=
  BitVec.toInt_signExtend_of_le h

/-- A two's-complement value is even when its bit 0 is 0. -/
theorem two_dvd_toInt {n : Nat} (v : BitVec (n + 1)) (h : v.getLsbD 0 = false) : 2 ∣ v.toInt := by
  have hv : v.toNat % 2 = 0 := by simpa [BitVec.getLsbD, Nat.testBit_zero] using h
  rw [BitVec.toInt_eq_toNat_cond, pow_succ]
  split <;> omega

/-- The range of a sign-extended immediate of `n + 1` bits (R87, R88). -/
theorem sext_range {n : Nat} (v : BitVec (n + 1)) (h : n < 32) :
    -(2 : Int) ^ n ≤ (sext v).toInt ∧ (sext v).toInt ≤ 2 ^ n - 1 := by
  rw [toInt_sext v h]
  exact ⟨BitVec.le_toInt v, Int.le_sub_one_of_lt (BitVec.toInt_lt (x := v))⟩

/-- The range of a sign-extended even offset of `n + 2` bits (R89, R90). -/
theorem sext_even_range {n : Nat} (v : BitVec (n + 2)) (h : n + 1 < 32) (he : v.getLsbD 0 = false) :
    -(2 : Int) ^ (n + 1) ≤ (sext v).toInt ∧ (sext v).toInt ≤ 2 ^ (n + 1) - 2 := by
  obtain ⟨hlo, hhi⟩ := sext_range v h
  have heven := two_dvd_toInt v he
  rw [← toInt_sext v h] at heven
  rw [pow_succ] at hlo hhi ⊢
  omega

/-! ## The immediates bit by bit (R87 to R90)

An immediate is a concatenation of fields of the word: a bit's index says which field it lies in and how far the field was
shifted, so each equation is a comparison of indices. -/

theorem getLsbD_sext_immI (w : Word) {j : Nat} (hj : j < 32) :
    (sext (immIOf w)).getLsbD j = if j < 11 then w.getLsbD (j + 20) else w.getLsbD 31 := by
  rw [getLsbD_sext _ hj]
  simp only [immIOf, BitVec.getLsbD_extractLsb']
  grind

theorem getLsbD_sext_immS (w : Word) {j : Nat} (hj : j < 32) :
    (sext (immSOf w)).getLsbD j =
      if j < 5 then w.getLsbD (j + 7) else if j < 11 then w.getLsbD (j + 20) else w.getLsbD 31 := by
  rw [getLsbD_sext _ hj]
  simp only [immSOf, BitVec.getLsbD_append, BitVec.getLsbD_extractLsb']
  grind

theorem getLsbD_sext_immB (w : Word) {j : Nat} (hj : j < 32) :
    (sext (immBOf w)).getLsbD j =
      if j = 0 then false else if j < 5 then w.getLsbD (j + 7) else if j < 11 then w.getLsbD (j + 20)
      else if j = 11 then w.getLsbD 7 else w.getLsbD 31 := by
  rw [getLsbD_sext _ hj]
  simp only [immBOf, BitVec.getLsbD_append, BitVec.getLsbD_extractLsb']
  grind

theorem getLsbD_sext_immJ (w : Word) {j : Nat} (hj : j < 32) :
    (sext (immJOf w)).getLsbD j =
      if j = 0 then false else if j < 11 then w.getLsbD (j + 20) else if j = 11 then w.getLsbD 20
      else if j < 20 then w.getLsbD j else w.getLsbD 31 := by
  rw [getLsbD_sext _ hj]
  simp only [immJOf, BitVec.getLsbD_append, BitVec.getLsbD_extractLsb']
  grind

/-- Settles O4: the opcode says which immediate the descriptor holds; its bits and its range are that immediate's. -/
theorem immediatesBitByBit : Obligations.ImmediatesBitByBit := by
  intro w
  refine ⟨fun h => ?_, fun h => ?_, fun h => ?_, fun h => ?_⟩
  · rw [h.elim descOf_imm_of_opImm descOf_imm_of_opLoad]
    exact ⟨fun _ => getLsbD_sext_immI w, sext_range (immIOf w) (by decide)⟩
  · rw [descOf_imm_of_opStore h]
    exact ⟨fun _ => getLsbD_sext_immS w, sext_range (immSOf w) (by decide)⟩
  · rw [descOf_imm_of_opBranch h]
    exact ⟨fun _ => getLsbD_sext_immB w, sext_even_range (immBOf w) (by decide) (immB_even w)⟩
  · rw [descOf_imm_of_opJal h]
    exact ⟨fun _ => getLsbD_sext_immJ w, sext_even_range (immJOf w) (by decide) (immJ_even w)⟩

end Sys2Proof
end

section
/-! PROOFS. The integer results (41_integer.md R111 to R120): the forwarded operands are the registers of program order, and an
instruction in EX whose result goes to a register, without a redirect, completes with that result. -/

namespace Sys2Proof

/-- The five (funct7, funct3) pairs that select an operation, as a list (30_encoding.md R92). -/
theorem isRTypePair_iff_mem (f7 : BitVec 7) (f3 : BitVec 3) :
    isRTypePair f7 f3 = true ↔ (f7, f3) ∈ [(0b0000000#7, 0b000#3), (0b0100000#7, 0b000#3), (0b0000000#7, 0b100#3),
      (0b0000000#7, 0b110#3), (0b0000000#7, 0b111#3)] := by
  simp only [isRTypePair, Bool.or_eq_true, Bool.and_eq_true, beq_iff_eq, List.mem_cons, Prod.mk.injEq, List.not_mem_nil]
  tauto

end Sys2Proof

namespace Sys2Proof.Machine

/-! ## The operands of EX in program order (45_pipeline_engine.md R165, R169) -/

/-- Forwarding gives the register of program order, when the carried value is the register file's and no load in MEM, whose
value EX cannot have yet, is to write the register. -/
theorem fwd_eq_progReg {s : State} {r : Reg} {v : Word} (hv : v = readReg s.rf r)
    (hl : ¬(s.MEM.nop = false ∧ s.MEM.rdMem = true ∧ s.MEM.rd ≠ 0 ∧ s.MEM.rd = r)) : fwd s r v = progReg s r := by
  rw [progReg_eq]
  by_cases h0 : r = 0
  · simp [fwd, rfread, readReg, hv, h0]
  by_cases hm : s.MEM.nop = false ∧ s.MEM.wrtRf = true ∧ r = s.MEM.rd ∧ r ≠ 0
  · obtain ⟨hn, hw, hr, -⟩ := hm
    have hload : s.MEM.rdMem = false := by
      by_contra hc
      exact hl ⟨hn, by simpa using hc, hr ▸ h0, hr.symm⟩
    rw [fwd, if_pos ⟨h0, hn, hw, hload, hr.symm⟩, if_pos ⟨hn, hw, hr, h0⟩, memValue, hload]
    rfl
  · rw [fwd, if_neg fun h => hm ⟨h.2.1, h.2.2.1, h.2.2.2.2.symm, h0⟩, if_neg hm]
    simp only [rfread, h0, hv, ne_eq, not_false_eq_true, true_and, if_false]

theorem operandA_eq_progReg {s : State} (hn : s.EX.nop = false) (hc : OperandsCurrent s) :
    operandA s s.EX.rs1 = progReg s s.EX.rs1 := by
  obtain ⟨-, ho, hl⟩ := hc
  exact fwd_eq_progReg (ho hn).1 fun ⟨hm, hr, h0, h⟩ => hl ⟨hn, hm, hr, h0, .inl h⟩

theorem operandB0_eq_progReg {s : State} (hn : s.EX.nop = false) (hc : OperandsCurrent s) :
    operandB0 s s.EX.rs2 = progReg s s.EX.rs2 := by
  obtain ⟨-, ho, hl⟩ := hc
  exact fwd_eq_progReg (ho hn).2 fun ⟨hm, hr, h0, h⟩ => hl ⟨hn, hm, hr, h0, .inr h⟩

/-- An operation kind that never takes a branch redirects nothing (45_pipeline_engine.md R168). -/
theorem exStage_redirect_none {s : State} (h : ∀ a b, taken s.EX.op a b = false) : (exStage s).redirect = none := by
  by_cases hn : s.EX.nop = true
  · rw [exStage_nop hn, ExOut.bubble_redirect]
  · simp [exStage, hn, h]

/-! ## A result for a register completes (45_pipeline_engine.md R162, R163, R167) -/

theorem toRegister_carriesResult (w : Option Word) (rd : Reg) (v b0 : Word) (s : State) :
    CarriesResult rd v (nextState w (.toRegister rd v b0) s) :=
  ⟨rfl, rfl, rfl, rfl, rfl, rfl⟩

theorem toRegister_registerSet (w : Option Word) (rd : Reg) (v b0 : Word) (s : State) :
    RegisterSet rd v s (nextState w (.toRegister rd v b0) s) := by
  intro r
  rw [progReg, progRf_next, if_pos ⟨rfl, rfl⟩, readReg_writeReg]
  rfl

theorem toRegister_dataKept (w : Option Word) (rd : Reg) (v b0 : Word) (s : State) :
    DataKept s (nextState w (.toRegister rd v b0) s) := fun _ => rfl

/-- An instruction in EX that hands a result on for `rd`, and whose kind takes no branch, completes with the result. -/
theorem completesWith_of_toRegister {i : Instr} {s : State} {rd : Reg} {v b0 : Word} (he : Executes i s)
    (ht : ∀ a b, taken i.desc.op a b = false) (hx : exec i s = cycle (.toRegister rd v b0) s) : CompletesWith i rd v s := by
  obtain ⟨⟨hn, hd, -⟩, -, hp, hh, hm, hi, hf⟩ := he
  have hop : s.EX.op = i.desc.op := congrArg Desc.op hd
  rw [exStage_redirect_none (hop ▸ ht)] at hi
  exact ⟨_, hx.trans (cycle_safe hh hm hi hf), toRegister_carriesResult _ rd v b0 s,
    toRegister_registerSet _ rd v b0 s, toRegister_dataKept _ rd v b0 s, progPc_seq _ s hp hn rfl⟩

/-- A register-register instruction completes with its function of the registers of program order. -/
theorem completesWith_of_execRegReg {i : Instr} {op : OpKind} {rd rs1 rs2 : Reg} {f : Word → Word → Word} {s : State}
    (hi : i.desc = .rType op rd rs1 rs2) (ht : ∀ a b, taken op a b = false) (hx : exec i s = execRegReg f rd rs1 rs2 s)
    (he : Executes i s) : CompletesWith i rd (f (progReg s rs1) (progReg s rs2)) s := by
  have ⟨⟨hn, hd, _⟩, hc, _⟩ := he
  have h1 : s.EX.rs1 = rs1 := congrArg Desc.rs1 (hd.trans hi)
  have h2 : s.EX.rs2 = rs2 := congrArg Desc.rs2 (hd.trans hi)
  have ha : operandA s rs1 = progReg s rs1 := h1 ▸ operandA_eq_progReg hn hc
  have hb : operandB0 s rs2 = progReg s rs2 := h2 ▸ operandB0_eq_progReg hn hc
  rw [execRegReg, ha, hb] at hx
  exact completesWith_of_toRegister he (hi ▸ ht) hx

/-- A register-immediate instruction completes with its function of the register of program order and the sign-extended
immediate. -/
theorem completesWith_of_execRegImm {i : Instr} {op : OpKind} {rd rs1 : Reg} {imm : BitVec 12} {f : Word → Word → Word}
    {s : State} (hi : i.desc = .opImm op rd rs1 imm) (ht : ∀ a b, taken op a b = false)
    (hx : exec i s = execRegImm f rd rs1 imm s) (he : Executes i s) :
    CompletesWith i rd (f (progReg s rs1) (sext imm)) s := by
  have ⟨⟨hn, hd, _⟩, hc, _⟩ := he
  have h1 : s.EX.rs1 = rs1 := congrArg Desc.rs1 (hd.trans hi)
  have ha : operandA s rs1 = progReg s rs1 := h1 ▸ operandA_eq_progReg hn hc
  rw [execRegImm, ha] at hx
  exact completesWith_of_toRegister he (hi ▸ ht) hx

open Laws

/-- Settles O12: the words are the encodings the decoder reads back, and each operation is a register-register meaning. -/
theorem registerRegisterResults : Obligations.RegisterRegisterResults := by
  intro s rd rs1 rs2 f7 f3
  refine ⟨EncodeDecode.add rd rs1 rs2 rfl, EncodeDecode.sub rd rs1 rs2 rfl, EncodeDecode.xor rd rs1 rs2 rfl,
    EncodeDecode.or rd rs1 rs2 rfl, EncodeDecode.and rd rs1 rs2 rfl, fun hp => ?_, ?_, ?_, ?_, ?_, ?_, ?_⟩
  · have hwf : (Instr.opZero f7 f3 rd rs1 rs2).wf = true := by
      simpa [Instr.wf] using mt (isRTypePair_iff_mem f7 f3).mp hp
    exact EncodeDecode.opZero f7 f3 rd rs1 rs2 hwf
  · exact completesWith_of_execRegReg (f := fun a b => a + b) rfl (fun _ _ => rfl) rfl
  · exact completesWith_of_execRegReg (f := fun a b => a - b) rfl (fun _ _ => rfl) rfl
  · exact completesWith_of_execRegReg (f := fun a b => a ^^^ b) rfl (fun _ _ => rfl) rfl
  · exact completesWith_of_execRegReg (f := fun a b => a ||| b) rfl (fun _ _ => rfl) rfl
  · exact completesWith_of_execRegReg (f := fun a b => a &&& b) rfl (fun _ _ => rfl) rfl
  · exact completesWith_of_execRegReg (f := fun _ _ => 0) rfl (fun _ _ => rfl) rfl

/-- Settles O13: the words are the encodings the decoder reads back, and each operation is a register-immediate meaning. -/
theorem registerImmediateResults : Obligations.RegisterImmediateResults := by
  intro s rd rs1 imm
  refine ⟨EncodeDecode.addi rd rs1 imm rfl, EncodeDecode.xori rd rs1 imm rfl, EncodeDecode.ori rd rs1 imm rfl,
    EncodeDecode.andi rd rs1 imm rfl, ?_, ?_, ?_, ?_⟩
  · exact completesWith_of_execRegImm (f := fun a b => a + b) rfl (fun _ _ => rfl) rfl
  · exact completesWith_of_execRegImm (f := fun a b => a ^^^ b) rfl (fun _ _ => rfl) rfl
  · exact completesWith_of_execRegImm (f := fun a b => a ||| b) rfl (fun _ _ => rfl) rfl
  · exact completesWith_of_execRegImm (f := fun a b => a &&& b) rfl (fun _ _ => rfl) rfl

end Sys2Proof.Machine
end

section
/-! PROOFS. The effective address of LW and SW (42_load_store.md R130): EX forms it from the base in program order, and the
cycle leaves every register but LW's rd as it was. -/

namespace Sys2Proof.Machine

/-- After a cycle a register that EX's output does not write holds its value of program order. -/
theorem progReg_next_of_not_written (w : Option Word) {ex : ExOut} (s : State) {r : Reg}
    (h : ex.mem.wrtRf = true → r ≠ ex.mem.rd) : progReg (nextState w ex s) r = progReg s r := by
  rw [progReg, progRf_next]
  by_cases hw : ex.mem.nop = false ∧ ex.mem.wrtRf = true
  · rw [if_pos hw]
    exact readReg_writeReg_other _ (h hw.2) _
  · rw [if_neg hw]
    rfl

/-- The base of the instruction in EX is its rs1 of program order. -/
theorem operandA_of_executes {i : Instr} {s : State} (he : Executes i s) :
    operandA s i.desc.rs1 = progReg s i.desc.rs1 := by
  obtain ⟨⟨hn, hd, -⟩, hc, -⟩ := he
  have h1 : s.EX.rs1 = i.desc.rs1 := congrArg Desc.rs1 hd
  exact h1 ▸ operandA_eq_progReg hn hc

/-- An instruction in EX whose kind takes no branch gives the next state of its EX output. -/
theorem exec_next_of_executes {i : Instr} {s : State} {ex : ExOut} (he : Executes i s)
    (ht : ∀ a b, taken i.desc.op a b = false) (hr : ex.redirect = none) (hx : exec i s = cycle ex s) :
    exec i s = .next (nextState (fetchedWord s) ex s) := by
  obtain ⟨⟨-, hd, -⟩, -, -, hh, hm, hi, hf⟩ := he
  have hop : s.EX.op = i.desc.op := congrArg Desc.op hd
  rw [exStage_redirect_none (hop ▸ ht), ← hr] at hi
  exact hx.trans (cycle_safe hh hm hi hf)

/-- Settles O15: the address is formed from the forwarded base, and EX's output writes rd for LW and nothing for SW. -/
theorem loadStoreEffectiveAddress : Obligations.LoadStoreEffectiveAddress := by
  intro s f3 rd rs1 rs2 imm
  refine ⟨fun he => ?_, fun he => ?_⟩
  · have ha : operandA s rs1 = progReg s rs1 := operandA_of_executes he
    exact ⟨_, exec_next_of_executes he (fun _ _ => rfl) rfl rfl, congrArg (effectiveAddress · imm) ha,
      fun hne => progReg_next_of_not_written _ s fun _ => hne⟩
  · have ha : operandA s rs1 = progReg s rs1 := operandA_of_executes he
    exact ⟨_, exec_next_of_executes he (fun _ _ => rfl) rfl rfl, congrArg (effectiveAddress · imm) ha,
      progReg_next_of_not_written _ s (fun hw => nomatch hw)⟩

end Sys2Proof.Machine
end

section
/-! PROOFS. BEQ and BNE (43_control_transfer.md R141, R142): EX compares the registers of program order, its redirect flushes
the two younger stages (45_pipeline_engine.md R176, R177), and the branch itself passes through MEM and WB without effect. -/

namespace Sys2Proof.Machine

/-! ## The comparison in EX (45_pipeline_engine.md R165, R168) -/

/-- The second source of the instruction in EX is its rs2 of program order. -/
theorem operandB0_of_executes {i : Instr} {s : State} (he : Executes i s) :
    operandB0 s i.desc.rs2 = progReg s i.desc.rs2 := by
  obtain ⟨⟨hn, hd, -⟩, hc, -⟩ := he
  have h2 : s.EX.rs2 = i.desc.rs2 := congrArg Desc.rs2 hd
  exact h2 ▸ operandB0_eq_progReg hn hc

/-- EX redirects exactly when the operation kind takes the branch on the latch's forwarded operands. -/
theorem exStage_redirect {s : State} (hn : s.EX.nop = false) : (exStage s).redirect =
    if taken s.EX.op (operandA s s.EX.rs1) (operandB0 s s.EX.rs2) then some (s.EX.pc + s.EX.imm) else none := by
  simp [exStage, hn]

/-- The redirect of the instruction in EX, read from its descriptor. -/
theorem exStage_redirect_of_holds {i : Instr} {s : State} (h : s.EX.holds i) : (exStage s).redirect =
    if taken i.desc.op (operandA s i.desc.rs1) (operandB0 s i.desc.rs2) then some (s.EX.pc + i.desc.imm) else none := by
  obtain ⟨hn, hd, -⟩ := h
  rw [← hd]
  exact exStage_redirect hn

/-! ## After a redirect (45_pipeline_engine.md R176, R177) -/

/-- The next state of a redirect fetches the target, with nothing valid in ID and EX. -/
theorem nextState_of_redirect (w : Option Word) {ex : ExOut} (s : State) {target : Word} (h : ex.redirect = some target) :
    (nextState w ex s).IF = { nop := false, pc := target } ∧ (nextState w ex s).ID = .bubble ∧
      (nextState w ex s).EX = .bubble ∧ progPc (nextState w ex s) = target := by
  refine ⟨?_, ?_, ?_, progPc_redirect w ex s target h⟩
  · rw [nextState_IF, h, nextIfId_redirect]
  · rw [nextState_ID, h, nextIfId_redirect]
  · simp [nextEx, h]

/-! ## An instruction in MEM without effect (45_pipeline_engine.md R162, R163) -/

/-- A valid MEM latch that writes no register and accesses no memory changes nothing in MEM and in WB, and is counted. -/
theorem passesWithoutEffect_of_mem {t : State} (hn : t.MEM.nop = false) (hrf : t.MEM.wrtRf = false)
    (hrd : t.MEM.rdMem = false) (hwr : t.MEM.wrtMem = false) : PassesWithoutEffect t := by
  refine ⟨hn, hrf, hrd, hwr, fun u hu => ?_⟩
  obtain ⟨_, _, -, -, -, rfl⟩ := step_next hu
  refine ⟨by simp [progDmem, hwr], by simp [nextWb, hn], fun v hv => ?_⟩
  obtain ⟨_, _, -, -, -, rfl⟩ := step_next hv
  refine ⟨?_, ?_⟩
  · rw [nextState_rf, wbRf, nextState_WB]
    simp [nextWb, hn, hrf]
  · rw [nextState_retired, wbRetired, nextState_WB]
    simp [nextWb, hn]

/-! ## A conditional branch completes (43_control_transfer.md R141, R142) -/

/-- What EX of a conditional branch hands on when the comparison answers `go`. -/
def ExOut.branch (go : Bool) (target b0 : Word) : ExOut :=
  { mem := { nop := false, aluResult := 0, storeData := b0, rd := 0, rdMem := false, wrtMem := false, wrtRf := false }
    redirect := if go then some target else none }

theorem execBranch_eq_cycle (cond : Word → Word → Bool) (rs1 rs2 : Reg) (off : BitVec 13) (s : State) :
    execBranch cond rs1 rs2 off s =
      cycle (.branch (cond (operandA s rs1) (operandB0 s rs2)) (branchTarget s.EX.pc off) (operandB0 s rs2)) s := rfl

section
variable (w : Option Word) (go : Bool) (target b0 : Word) (s : State)

theorem branch_registersKept : RegistersKept s (nextState w (.branch go target b0) s) :=
  fun _ => progReg_next_of_not_written w s fun hw => nomatch hw

theorem branch_dataKept : DataKept s (nextState w (.branch go target b0) s) := fun _ => rfl

theorem branch_passesWithoutEffect : PassesWithoutEffect (nextState w (.branch go target b0) s) :=
  passesWithoutEffect_of_mem rfl rfl rfl rfl

end

/-- A conditional branch in EX goes where its kind's comparison of the two registers of program order sends it. -/
theorem branches_of_execBranch {i : Instr} {op : OpKind} {rs1 rs2 : Reg} {off : BitVec 13} {s : State}
    (hi : i.desc = .branch op rs1 rs2 off) (hx : exec i s = execBranch (taken op) rs1 rs2 off s) (he : Executes i s) :
    Branches i (taken op (progReg s rs1) (progReg s rs2) = true) (branchTarget s.EX.pc off) s := by
  have h1 : i.desc.rs1 = rs1 := congrArg Desc.rs1 hi
  have h2 : i.desc.rs2 = rs2 := congrArg Desc.rs2 hi
  have ha : operandA s rs1 = progReg s rs1 := h1 ▸ operandA_of_executes he
  have hb : operandB0 s rs2 = progReg s rs2 := h2 ▸ operandB0_of_executes he
  obtain ⟨hex, -, hp, hh, hm, hid, hf⟩ := he
  rw [exStage_redirect_of_holds hex, h1, h2, ha, hb, hi] at hid
  rw [execBranch_eq_cycle, ha, hb] at hx
  refine ⟨_, hx.trans (cycle_safe hh hm hid hf), branch_registersKept _ _ _ _ s, branch_dataKept _ _ _ _ s,
    branch_passesWithoutEffect _ _ _ _ s, fun ht => ?_, fun ht => ?_⟩
  · exact nextState_of_redirect _ s (if_pos ht)
  · exact progPc_seq _ s hp hex.1 (if_neg ht)

open Laws

/-- Settles O18: the words are the encodings the decoder reads back, and each branch's kind is taken on its comparison. -/
theorem branchResults : Obligations.BranchResults := by
  intro s rs1 rs2 off f3 he
  refine ⟨EncodeDecode.beq rs1 rs2 off ?_, fun h3 => EncodeDecode.bne f3 rs1 rs2 off ?_, fun hx => ?_, fun hx => ?_⟩
  · simpa [Instr.wf] using he
  · simpa [Instr.wf, h3] using he
  · rw [← beq_iff_eq]
    exact branches_of_execBranch rfl rfl hx
  · rw [← bne_iff_ne]
    exact branches_of_execBranch rfl rfl hx

end Sys2Proof.Machine
end

section
/-! PROOFS. The step is R184's advance in every state, whichever meaning runs it (45_pipeline_engine.md R184); what follows for
the next IF and ID latches (R180), a stall (R178) and a redirect (R176). -/

namespace Sys2Proof.Machine

/-! ## The step is the advance (45_pipeline_engine.md R164 to R168, R184) -/

/-- EX's output for a valid latch whose descriptor is `d` (45_pipeline_engine.md R164 to R168). -/
def ExOut.ofDesc (d : Desc) (s : State) : ExOut :=
  let a := operandA s d.rs1
  let b0 := operandB0 s d.rs2
  { mem :=
      { nop := false
        aluResult := if d.op = .JAL then pcPlus4 s.EX.pc else alu d.op a (operandB d.isIType d.imm b0)
        storeData := b0
        rd := d.rd
        rdMem := d.rdMem
        wrtMem := d.wrtMem
        wrtRf := d.wrtRf }
    redirect := if taken d.op a b0 then some (s.EX.pc + d.imm) else none }

theorem exStage_eq_ofDesc {s : State} (hn : s.EX.nop = false) : exStage s = .ofDesc s.EX.desc s :=
  if_neg (by simp [hn])

/-- Every meaning but HALT's is the cycle whose EX output is that of its descriptor. -/
theorem exec_eq_cycle_ofDesc {i : Instr} (h : i.desc.op ≠ .HALT) (s : State) :
    exec i s = cycle (.ofDesc i.desc s) s := by
  cases i with
  | halt word => exact absurd rfl h
  | _ => rfl

theorem exec_eq_advance_of_holds {i : Instr} {s : State} (h : s.EX.holds i) : exec i s = advance s := by
  obtain ⟨hn, hd, hop⟩ := h
  have hi : i.desc.op ≠ .HALT := hd ▸ hop
  rw [exec_eq_cycle_ofDesc hi, advance, exStage_eq_ofDesc hn, hd]

theorem ifFetch_of_haltFetched {s : State} {w : Word} (h : haltFetched s = some w) : ifFetch s = .ok (some w) := by
  unfold haltFetched at h
  split at h
  next v hv =>
    obtain ⟨-, ⟨⟩⟩ := Option.ite_none_right_eq_some.mp h
    exact hv
  · cases h

theorem exec_halt_eq_advance {s : State} {w : Word} (h : haltFetched s = some w) : exec (.halt w) s = advance s := by
  rw [advance, cycle, ifFetch_of_haltFetched h]
  rfl

/-- The instruction a cycle runs is held by EX or, with EX empty, is the HALT being fetched. -/
theorem exec_eq_advance_of_running {i : Instr} {s : State} (h : running s = some i) : exec i s = advance s := by
  unfold running at h
  split at h
  · obtain ⟨w, hw, rfl⟩ := Option.map_eq_some_iff.mp h
    exact exec_halt_eq_advance hw
  · obtain ⟨hh, ⟨⟩⟩ := Option.ite_none_right_eq_some.mp h
    exact exec_eq_advance_of_holds hh

theorem step_eq_advance (s : State) : step s = advance s := by
  unfold step
  cases hr : running s with
  | none => rfl
  | some i => exact exec_eq_advance_of_running hr

theorem step_of_cycleSafe {s : State} (h : CycleSafe s) :
    step s = .next (nextState (fetchedWord s) (exStage s) s) := by
  obtain ⟨hh, hm, hi, hf⟩ := h
  rw [step_eq_advance, advance, cycle_safe hh hm hi hf]

/-- The next state of a step, with EX's output and the fetched word those of the stages. -/
theorem eq_nextState_of_step {s t : State} (h : step s = .next t) : t = nextState (fetchedWord s) (exStage s) s := by
  rw [step_eq_advance] at h
  obtain ⟨-, -, -, -, ht⟩ := cycle_next h
  exact ht

/-- A cycle in which only the fetch is out of range gives the fetch's fault (45_pipeline_engine.md R183 c). -/
theorem step_fetch_fault {s : State} (hh : s.halted = false) (hm : MemSafe s) (hi : IdSafe (exStage s).redirect s)
    (hf : ¬FetchSafe s) : step s = .fault (.fetchOutOfRange s.IF.pc) := by
  rw [step_eq_advance, advance, cycle, ifFetch_unsafe hf]
  simp [cycleWith, hh, memStage_safe hm, idStage_safe hi]

/-! ## The next IF and ID latches (45_pipeline_engine.md R180) -/

theorem fetchedWord_of_valid {s : State} (hn : s.IF.nop = false) :
    fetchedWord s = some (s.params.imem.readWord s.IF.pc) := by
  simp [fetchedWord, hn]

/-- The two latches of a next state are the pair `nextIfId` gives. -/
theorem nextState_IF_ID {w : Option Word} {ex : ExOut} {s : State} {l : IFLatch} {m : IDLatch}
    (h : nextIfId ex.redirect w s = (l, m)) : (nextState w ex s).IF = l ∧ (nextState w ex s).ID = m :=
  ⟨congrArg Prod.fst h, congrArg Prod.snd h⟩

/-- Settles O26: a step commits the row of `nextIfId` that its redirect, its stall and its fetch select. -/
theorem nextFetchTable : Obligations.NextFetchTable := by
  intro s t h
  obtain rfl := eq_nextState_of_step h
  refine ⟨fun target hr => ?_, fun hr hs => ?_, fun hr hs hn => ?_, fun hr hs hn hw => ?_, fun hr hs hn hw => ?_⟩ <;>
    refine nextState_IF_ID ?_ <;> rw [hr]
  · exact nextIfId_redirect target _ s
  · exact nextIfId_stall hs _
  · exact nextIfId_stopped hs hn _
  · rw [fetchedWord_of_valid hn]
    exact nextIfId_halt hs hn (decide_eq_true hw)
  · rw [fetchedWord_of_valid hn]
    exact nextIfId_fetch hs hn (decide_eq_false hw)

/-! ## A redirect comes from a branch or a jump, which accesses no memory (45_pipeline_engine.md R168, R181) -/

theorem desc_noAccess_of_taken {i : Instr} {a b : Word} (h : taken i.desc.op a b = true) :
    i.desc.rdMem = false ∧ i.desc.wrtMem = false := by
  cases i with
  | beq | bne | jal => exact ⟨rfl, rfl⟩
  | _ => cases h

theorem exStage_redirect_some {s : State} {target : Word} (hd : ExDecoded s) (h : (exStage s).redirect = some target) :
    s.EX.nop = false ∧ s.EX.rdMem = false ∧ s.EX.wrtMem = false := by
  have hn : s.EX.nop = false := by
    by_contra hc
    rw [exStage_nop (by simpa using hc)] at h
    cases h
  rw [exStage_redirect hn] at h
  obtain ⟨ht, -⟩ := Option.ite_none_right_eq_some.mp h
  obtain ⟨-, hw⟩ := hd hn
  have hop : s.EX.op = (descOf (s.params.imem.readWord s.EX.pc)).op := congrArg Desc.op hw
  rw [hop] at ht
  obtain ⟨hr, hs⟩ := desc_noAccess_of_taken ht
  exact ⟨hn, (congrArg Desc.rdMem hw).trans hr, (congrArg Desc.wrtMem hw).trans hs⟩

/-! ## A stall (45_pipeline_engine.md R178) -/

/-- The instruction in EX at a stall is a load, so it redirects nothing (45_pipeline_engine.md R181). -/
theorem exStage_redirect_of_stall {s : State} (hd : ExDecoded s) (h : stall s = true) : (exStage s).redirect = none := by
  obtain ⟨-, -, hload, -⟩ := stall_true h
  refine Option.eq_none_iff_forall_ne_some.mpr fun target hr => ?_
  obtain ⟨-, hno, -⟩ := exStage_redirect_some hd hr
  cases hno.symm.trans hload

theorem nextEx_stall {redirect : Option Word} {s : State} (h : stall s = true) : nextEx redirect s = .bubble :=
  if_pos (.inr (.inr h))

/-- Settles O27: the redirect row does not apply, so the stall row does, and EX hands the load on. -/
theorem stallHoldsIfAndId : Obligations.StallHoldsIfAndId := by
  intro s hs hd hc
  obtain ⟨-, hn, hload, -⟩ := stall_true hs
  have hrow : nextIfId (exStage s).redirect (fetchedWord s) s = (s.IF, s.ID) := by
    rw [exStage_redirect_of_stall hd hs, nextIfId_stall hs]
  obtain ⟨hif, hid⟩ := nextState_IF_ID hrow
  refine ⟨_, step_of_cycleSafe hc, hif, hid, nextEx_stall hs, ?_⟩
  rw [nextState_MEM, exStage_eq_ofDesc hn]
  exact ⟨rfl, hload, rfl⟩

/-! ## A redirect (45_pipeline_engine.md R176) -/

/-- After a redirect the branch is in MEM, without an access. -/
theorem nextState_memSafe_of_redirect (w : Option Word) {s : State} {target : Word} (hd : ExDecoded s)
    (h : (exStage s).redirect = some target) : MemSafe (nextState w (exStage s) s) := by
  obtain ⟨hn, hr, hs⟩ := exStage_redirect_some hd h
  intro _ haccess
  rw [nextState_MEM, exStage_eq_ofDesc hn] at haccess
  exact absurd haccess (by simp [ExOut.ofDesc, EXLatch.desc, hr, hs])

/-- An empty ID refuses nothing (45_pipeline_engine.md R170). -/
theorem idSafe_of_empty {redirect : Option Word} {s : State} (h : s.ID.nop = true) : IdSafe redirect s :=
  fun _ hv => by cases hv.symm.trans h

/-- In the cycle after a redirect neither MEM, which holds the branch, nor ID, which is empty, stops the machine before the
fetch of a target outside IMEM does. -/
theorem step_fault_after_redirect {s t : State} {target : Word} (hd : ExDecoded s)
    (hr : (exStage s).redirect = some target) (h : step s = .next t) (hout : ¬s.params.imem.inRange target) :
    step t = .fault (.fetchOutOfRange target) := by
  obtain ⟨hn, -⟩ := exStage_redirect_some hd hr
  obtain rfl := eq_nextState_of_step h
  obtain ⟨hif, hid, -⟩ := nextState_of_redirect (fetchedWord s) s hr
  have hh : (nextState (fetchedWord s) (exStage s) s).halted = false := by simp [allNop, hn]
  have hf : ¬FetchSafe (nextState (fetchedWord s) (exStage s) s) := by
    rw [FetchSafe, hif, nextState_params]
    exact fun hsafe => hout (hsafe rfl)
  rw [step_fetch_fault hh (nextState_memSafe_of_redirect _ hd hr) (idSafe_of_empty (congrArg IDLatch.nop hid)) hf, hif]

/-- Settles O29: the redirect row makes the target the next fetch, and nothing older than that fetch stops the next cycle. -/
theorem redirectFetchesTheTarget : Obligations.RedirectFetchesTheTarget := by
  intro s target hd hr hc
  obtain ⟨hif, -⟩ := nextState_of_redirect (fetchedWord s) s hr
  have hstep := step_of_cycleSafe hc
  exact ⟨_, hstep, hif, step_fault_after_redirect hd hr hstep⟩

end Sys2Proof.Machine
end

section
/-! PROOFS. Decoder and encoder are inverse to one another (30_encoding.md R80 to R92, R95), and what R93's table says of a
decoded word. -/

namespace Sys2Proof

open Laws

/-! ## Encode, then decode -/

theorem decodeWord_encode (i : Instr) (h : i.wf = true) : decodeWord (encode i) = i := by
  cases i with
  | add rd rs1 rs2 => exact EncodeDecode.add rd rs1 rs2 h
  | sub rd rs1 rs2 => exact EncodeDecode.sub rd rs1 rs2 h
  | xor rd rs1 rs2 => exact EncodeDecode.xor rd rs1 rs2 h
  | or rd rs1 rs2 => exact EncodeDecode.or rd rs1 rs2 h
  | and rd rs1 rs2 => exact EncodeDecode.and rd rs1 rs2 h
  | opZero f7 f3 rd rs1 rs2 => exact EncodeDecode.opZero f7 f3 rd rs1 rs2 h
  | addi rd rs1 imm => exact EncodeDecode.addi rd rs1 imm h
  | xori rd rs1 imm => exact EncodeDecode.xori rd rs1 imm h
  | ori rd rs1 imm => exact EncodeDecode.ori rd rs1 imm h
  | andi rd rs1 imm => exact EncodeDecode.andi rd rs1 imm h
  | opimmZero f3 rd rs1 imm => exact EncodeDecode.opimmZero f3 rd rs1 imm h
  | lw f3 rd rs1 imm => exact EncodeDecode.lw f3 rd rs1 imm h
  | sw f3 rs1 rs2 imm => exact EncodeDecode.sw f3 rs1 rs2 imm h
  | beq rs1 rs2 off => exact EncodeDecode.beq rs1 rs2 off h
  | bne f3 rs1 rs2 off => exact EncodeDecode.bne f3 rs1 rs2 off h
  | jal rd off => exact EncodeDecode.jal rd off h
  | halt word => exact EncodeDecode.halt word h

/-- Settles O1: the bytes are those of the encoded word, which decodes to the instruction. -/
theorem decodeReadsBackEncodedBytes : Obligations.DecodeReadsBackEncodedBytes := by
  intro i rest h
  rw [encodeBytes, decode_bytesOfWord, decodeWord_encode i h]

/-! ## Decode, then encode

Each branch of a family's decoder fixes the funct7 and funct3 it tests, so the encoding of its instruction puts the
word's own fields together again. -/

/-- `i` is a well-formed instruction whose word is `w`. -/
abbrev IsWordOf (w : Word) (i : Instr) : Prop := i.wf = true ∧ encode i = w

theorem decodeR_isWordOf {w : Word} (h : opcodeOf w = opR) : IsWordOf w (decodeR w) := by
  have hw := encodeR_of_fields h
  unfold decodeR
  split_ifs with h1 h2 h3 h4 h5
  · exact ⟨rfl, by rw [encode, ← h1.1, ← h1.2, hw]⟩
  · exact ⟨rfl, by rw [encode, ← h2.1, ← h2.2, hw]⟩
  · exact ⟨rfl, by rw [encode, ← h3.1, ← h3.2, hw]⟩
  · exact ⟨rfl, by rw [encode, ← h4.1, ← h4.2, hw]⟩
  · exact ⟨rfl, by rw [encode, ← h5.1, ← h5.2, hw]⟩
  · refine ⟨?_, hw⟩
    have hp : ¬isRTypePair (funct7Of w) (funct3Of w) = true := by
      simp only [isRTypePair, Bool.or_eq_true, Bool.and_eq_true, beq_iff_eq]
      tauto
    simpa [Instr.wf] using hp

theorem decodeOpImm_isWordOf {w : Word} (h : opcodeOf w = opImm) : IsWordOf w (decodeOpImm w) := by
  have hw := encodeI_of_fields w
  rw [h] at hw
  unfold decodeOpImm
  split_ifs with h1 h2 h3 h4
  · exact ⟨rfl, by rw [encode, ← h1, hw]⟩
  · exact ⟨rfl, by rw [encode, ← h2, hw]⟩
  · exact ⟨rfl, by rw [encode, ← h3, hw]⟩
  · exact ⟨rfl, by rw [encode, ← h4, hw]⟩
  · refine ⟨?_, hw⟩
    have hp : ¬isOpImmFunct3 (funct3Of w) = true := by
      simp only [isOpImmFunct3, Bool.or_eq_true, beq_iff_eq]
      tauto
    simpa [Instr.wf] using hp

theorem decodeBranch_isWordOf {w : Word} (h : opcodeOf w = opBranch) : IsWordOf w (decodeBranch w) := by
  have hw := encodeB_of_fields h
  unfold decodeBranch
  split_ifs with h1
  · exact ⟨by simpa [Instr.wf] using immB_even w, by rw [encode, ← h1, hw]⟩
  · exact ⟨by simpa [Instr.wf] using And.intro h1 (immB_even w), hw⟩

/-- Settles O2: by the opcode's family; a word of another opcode is its own HALT. -/
theorem everyWordEncodesItsDecoding : Obligations.EveryWordEncodesItsDecoding := by
  intro w
  by_cases hd : isDecodedOpcode (opcodeOf w) = true
  · have hmem := (isDecodedOpcode_iff_mem _).mp hd
    simp only [List.mem_cons, List.not_mem_nil, or_false] at hmem
    obtain h | h | h | h | h | h := hmem
    · rw [decodeWord_of_opR h]
      exact decodeR_isWordOf h
    · rw [decodeWord_of_opImm h]
      exact decodeOpImm_isWordOf h
    · rw [decodeWord_of_opLoad h]
      exact ⟨rfl, by rw [encode, ← h, encodeI_of_fields]⟩
    · rw [decodeWord_of_opStore h]
      exact ⟨rfl, encodeS_of_fields h⟩
    · rw [decodeWord_of_opBranch h]
      exact decodeBranch_isWordOf h
    · rw [decodeWord_of_opJal h]
      exact ⟨by simpa [Instr.wf] using immJ_even w, encodeJ_of_fields h⟩
  · rw [Bool.not_eq_true] at hd
    rw [decodeWord_of_not_decoded hd]
    exact ⟨by simpa [Instr.wf, opcodeOf] using hd, rfl⟩

/-! ## The words of 95_test_vectors.md -/

/-- Settles O7: the decoder evaluated on each word. -/
theorem sampleWordsDecode : Obligations.SampleWordsDecode := by
  unfold Obligations.SampleWordsDecode
  decide

/-! ## The control-flag table (30_encoding.md R93, R94) -/

/-- The flags of a descriptor are those its kind has in R93's table. -/
theorem desc_flags (i : Instr) : i.desc.isIType = i.desc.op.isIType ∧ i.desc.rdMem = i.desc.op.rdMem ∧
    i.desc.wrtMem = i.desc.op.wrtMem ∧ i.desc.wrtRf = i.desc.op.wrtRf := by
  cases i <;> exact ⟨rfl, rfl, rfl, rfl⟩

/-- The indices of `d` are the fields of `w` where its kind has that operand, and 0 where it has not (R94; D16). -/
abbrev IndicesOf (w : Word) (d : Desc) : Prop :=
  d.rs1 = (if d.op.readsRs1 then rs1Of w else 0) ∧ d.rs2 = (if d.op.readsRs2 then rs2Of w else 0) ∧
    d.rd = (if d.op.wrtRf then rdOf w else 0)

theorem decodeR_indices (w : Word) : IndicesOf w (decodeR w).desc := by
  unfold decodeR
  split_ifs <;> exact ⟨rfl, rfl, rfl⟩

theorem decodeOpImm_indices (w : Word) : IndicesOf w (decodeOpImm w).desc := by
  unfold decodeOpImm
  split_ifs <;> exact ⟨rfl, rfl, rfl⟩

theorem decodeBranch_indices (w : Word) : IndicesOf w (decodeBranch w).desc := by
  unfold decodeBranch
  split_ifs <;> exact ⟨rfl, rfl, rfl⟩

theorem descOf_indices (w : Word) : IndicesOf w (descOf w) := by
  unfold descOf decodeWord
  split_ifs
  · exact decodeR_indices w
  · exact decodeOpImm_indices w
  · exact ⟨rfl, rfl, rfl⟩
  · exact ⟨rfl, rfl, rfl⟩
  · exact decodeBranch_indices w
  · exact ⟨rfl, rfl, rfl⟩
  · exact ⟨rfl, rfl, rfl⟩

/-- Settles O5: the flags follow the kind of any instruction, the indices the fields the decoder took. -/
theorem descriptorFollowsControlTable : Obligations.DescriptorFollowsControlTable := by
  intro w
  obtain ⟨hi, hr, hw, hrf⟩ := desc_flags (decodeWord w)
  exact ⟨hi, hr, hw, hrf, descOf_indices w⟩

/-! ## Sign extension (00_scope.md R10) -/

/-- Settles O8: sign extension keeps the two's-complement value, which the top bit decides. -/
theorem signExtensionValue : Obligations.SignExtensionValue := by
  intro n v _ hn
  have hv := BitVec.toInt_eq_msb_cond v
  rw [BitVec.msb_eq_getLsbD_last, ← toInt_sext v hn] at hv
  exact ⟨fun h => by simpa [h] using hv, fun h => by simpa [h] using hv⟩

/-! ## The opcode table (opcode_table.json; 30_encoding.md R92) -/

/-- Two words with the same fields are equal. -/
theorem word_ext {w v : Word} (h7 : funct7Of w = funct7Of v) (h2 : rs2Of w = rs2Of v) (h1 : rs1Of w = rs1Of v)
    (h3 : funct3Of w = funct3Of v) (hd : rdOf w = rdOf v) (ho : opcodeOf w = opcodeOf v) : w = v := by
  have append (u : Word) : funct7Of u ++ rs2Of u = immIOf u :=
    BitVec.extractLsb'_append_extractLsb'_eq_extractLsb' (by decide)
  rw [← encodeI_of_fields w, ← encodeI_of_fields v, ← append, ← append, h7, h2, h1, h3, hd, ho]

/-- A word under a mask is a value when each of its fields under the mask's field is the value's field. -/
theorem and_eq_iff_fields (w m v : Word) : w &&& m = v ↔
    funct7Of w &&& m.extractLsb' 25 7 = v.extractLsb' 25 7 ∧ rs2Of w &&& m.extractLsb' 20 5 = v.extractLsb' 20 5 ∧
      rs1Of w &&& m.extractLsb' 15 5 = v.extractLsb' 15 5 ∧ funct3Of w &&& m.extractLsb' 12 3 = v.extractLsb' 12 3 ∧
      rdOf w &&& m.extractLsb' 7 5 = v.extractLsb' 7 5 ∧ opcodeOf w &&& m.extractLsb' 0 7 = v.extractLsb' 0 7 := by
  constructor
  · rintro rfl
    exact ⟨BitVec.extractLsb'_and.symm, BitVec.extractLsb'_and.symm, BitVec.extractLsb'_and.symm,
      BitVec.extractLsb'_and.symm, BitVec.extractLsb'_and.symm, BitVec.extractLsb'_and.symm⟩
  · rintro ⟨h7, h2, h1, h3, hd, ho⟩
    exact word_ext (BitVec.extractLsb'_and.trans h7) (BitVec.extractLsb'_and.trans h2) (BitVec.extractLsb'_and.trans h1)
      (BitVec.extractLsb'_and.trans h3) (BitVec.extractLsb'_and.trans hd) (BitVec.extractLsb'_and.trans ho)

theorem and_allOnes_seven (x : BitVec 7) : x &&& 127#7 = x := BitVec.and_allOnes
theorem and_allOnes_three (x : BitVec 3) : x &&& 7#3 = x := BitVec.and_allOnes

/-- The masks of the two OPIMM_ZERO rows share the funct3 values that select no operation between them. -/
theorem opimmZero_rows : ∀ f3 : BitVec 3, f3 ≠ 0#3 → f3 ≠ 4#3 → f3 ≠ 6#3 → f3 ≠ 7#3 →
    f3 &&& 3#3 = 1#3 ∧ f3 &&& 6#3 ≠ 2#3 ∨ f3 &&& 3#3 ≠ 1#3 ∧ f3 &&& 6#3 = 2#3 := by
  decide

/-- The kinds of the rows of `table` that cover `w`. -/
def coveringKinds (table : List TableRow) (w : Word) : List OpKind :=
  (table.filter fun row => row.covers w).map TableRow.op

theorem coveringKinds_append (t u : List TableRow) (w : Word) :
    coveringKinds (t ++ u) w = coveringKinds t w ++ coveringKinds u w := by
  simp [coveringKinds]

section
variable {w : Word}

theorem coveringKinds_tableR_other (h : opcodeOf w ≠ opR) : coveringKinds tableR w = [] := by
  simp only [opR, BitVec.ofNat_eq_ofNat] at h
  simp [coveringKinds, tableR, TableRow.covers, and_eq_iff_fields, and_allOnes_seven, h]

theorem coveringKinds_tableOpImm_other (h : opcodeOf w ≠ opImm) : coveringKinds tableOpImm w = [] := by
  simp only [opImm, BitVec.ofNat_eq_ofNat] at h
  simp [coveringKinds, tableOpImm, TableRow.covers, and_eq_iff_fields, and_allOnes_seven, h]

/-- The pair (funct7, funct3) selects the row as it selects the branch of `decodeR`. -/
theorem coveringKinds_tableR (h : opcodeOf w = opR) : coveringKinds tableR w = [(decodeR w).desc.op] := by
  simp only [opR, BitVec.ofNat_eq_ofNat] at h
  unfold decodeR
  simp only [BitVec.ofNat_eq_ofNat]
  split_ifs with h1 h2 h3 h4 h5 <;>
    simp [coveringKinds, tableR, TableRow.covers, and_eq_iff_fields, and_allOnes_seven, and_allOnes_three, Instr.desc,
      Desc.rType, *]

/-- funct3 selects the row as it selects the branch of `decodeOpImm`. -/
theorem coveringKinds_tableOpImm (h : opcodeOf w = opImm) : coveringKinds tableOpImm w = [(decodeOpImm w).desc.op] := by
  simp only [opImm, BitVec.ofNat_eq_ofNat] at h
  unfold decodeOpImm
  simp only [BitVec.ofNat_eq_ofNat]
  split_ifs with h1 h2 h3 h4
  case' neg => obtain ⟨hz, hz'⟩ | ⟨hz, hz'⟩ := opimmZero_rows _ h1 h2 h3 h4
  all_goals
    simp [coveringKinds, tableOpImm, TableRow.covers, and_eq_iff_fields, and_allOnes_seven, and_allOnes_three, Instr.desc,
      Desc.opImm, *]

/-- funct3 selects BEQ's row or BNE's. -/
theorem coveringKinds_tableRest_opBranch (h : opcodeOf w = opBranch) :
    coveringKinds tableRest w = [(decodeBranch w).desc.op] := by
  simp only [opBranch, BitVec.ofNat_eq_ofNat] at h
  unfold decodeBranch
  simp only [BitVec.ofNat_eq_ofNat]
  split_ifs with h1 <;>
    simp [coveringKinds, tableRest, TableRow.covers, and_eq_iff_fields, and_allOnes_seven, and_allOnes_three, Instr.desc,
      Desc.branch, *]

/-- The opcode alone selects the other rows: none for the two families with tables of their own. -/
theorem coveringKinds_tableRest (h : opcodeOf w ≠ opBranch) : coveringKinds tableRest w =
    if opcodeOf w = opR ∨ opcodeOf w = opImm then [] else if opcodeOf w = opLoad then [.LW]
    else if opcodeOf w = opStore then [.SW] else if opcodeOf w = opJal then [.JAL] else [.HALT] := by
  simp only [opR, opImm, opLoad, opStore, opBranch, opJal, BitVec.ofNat_eq_ofNat] at h ⊢
  by_cases hr : opcodeOf w = 51#7
  · simp [coveringKinds, tableRest, TableRow.covers, and_eq_iff_fields, and_allOnes_seven, hr]
  by_cases hi : opcodeOf w = 19#7
  · simp [coveringKinds, tableRest, TableRow.covers, and_eq_iff_fields, and_allOnes_seven, hi]
  by_cases hl : opcodeOf w = 3#7
  · simp [coveringKinds, tableRest, TableRow.covers, and_eq_iff_fields, and_allOnes_seven, hl]
  by_cases hs : opcodeOf w = 35#7
  · simp [coveringKinds, tableRest, TableRow.covers, and_eq_iff_fields, and_allOnes_seven, hs]
  by_cases hj : opcodeOf w = 111#7 <;>
    simp [coveringKinds, tableRest, TableRow.covers, and_eq_iff_fields, and_allOnes_seven, *]

end

/-- Settles O3: the opcode leaves one of the three parts of the table, in which the decoder's own tests select the row. -/
theorem oneTableRowCoversEachWord : Obligations.OneTableRowCoversEachWord := by
  intro w
  change coveringKinds (tableR ++ tableOpImm ++ tableRest) w = _
  rw [coveringKinds_append, coveringKinds_append]
  by_cases hb : opcodeOf w = opBranch
  · rw [coveringKinds_tableR_other (by rw [hb]; decide), coveringKinds_tableOpImm_other (by rw [hb]; decide),
      coveringKinds_tableRest_opBranch hb, descOf, decodeWord_of_opBranch hb]
    rfl
  rw [coveringKinds_tableRest hb]
  by_cases hr : opcodeOf w = opR
  · rw [coveringKinds_tableR hr, coveringKinds_tableOpImm_other (by rw [hr]; decide), if_pos (.inl hr), descOf,
      decodeWord_of_opR hr]
    rfl
  by_cases hi : opcodeOf w = opImm
  · rw [coveringKinds_tableR_other hr, coveringKinds_tableOpImm hi, if_pos (.inr hi), descOf, decodeWord_of_opImm hi]
    rfl
  rw [coveringKinds_tableR_other hr, coveringKinds_tableOpImm_other hi, if_neg (not_or.mpr ⟨hr, hi⟩), descOf, decodeWord,
    if_neg hr, if_neg hi, if_neg hb]
  split_ifs <;> rfl

end Sys2Proof
end

section
/-! PROOFS. What a step answers and what its next state holds, stage by stage (45_pipeline_engine.md R160 to R184). -/

namespace Sys2Proof.Machine

/-! ## The outcome of a step (45_pipeline_engine.md R161, R183) -/

theorem step_halted {s : State} (h : s.halted = true) : step s = .refused .halted := by
  rw [step_eq_advance, advance, cycle, cycleWith, if_pos h]

theorem step_mem_fault {s : State} (hh : s.halted = false) (hm : ¬MemSafe s) :
    step s = .fault (.dataOutOfRange s.MEM.aluResult) := by
  simp [step_eq_advance, advance, cycle, cycleWith, hh, memStage_unsafe hm]

theorem step_id_refused {s : State} (hh : s.halted = false) (hm : MemSafe s) (hi : ¬IdSafe (exStage s).redirect s) :
    step s = .refused (.unmatchedOpImm s.ID.pc s.ID.instr) := by
  simp [step_eq_advance, advance, cycle, cycleWith, hh, memStage_safe hm, idStage_unsafe hi]

theorem cycleSafe_of_step {s t : State} (h : step s = .next t) : CycleSafe s := by
  rw [step_eq_advance] at h
  obtain ⟨hh, hm, hi, hf, -⟩ := cycle_next h
  exact ⟨hh, hm, hi, hf⟩

/-- Settles O9: the instruction a cycle runs has the meaning the stages give its latch. -/
theorem stepIsTheWholeAdvance : Obligations.StepIsTheWholeAdvance := step_eq_advance

/-- Settles O11: a fault of an older stage hides every outcome of a younger one, and a safe cycle commits. -/
theorem stepOutcomeByAge : Obligations.StepOutcomeByAge := fun _ =>
  ⟨step_halted, step_mem_fault, step_id_refused, step_fetch_fault, fun h => ⟨_, step_of_cycleSafe h⟩⟩

/-! ## The instruction a step runs (45_pipeline_engine.md R164, R175) -/

theorem step_eq_exec_of_holds {s : State} {i : Instr} (h : s.EX.holds i) : step s = exec i s := by
  rw [step_eq_advance, exec_eq_advance_of_holds h]

/-- Under the invariant the latch holds the instruction of the IMEM word at its own pc. -/
theorem holds_of_exDecoded {s : State} (hd : ExDecoded s) (hn : s.EX.nop = false) :
    s.EX.holds (decodeWord (s.params.imem.readWord s.EX.pc)) := by
  obtain ⟨⟨-, hh⟩, hw⟩ := hd hn
  refine ⟨hn, hw, fun hop => ?_⟩
  have hop' : (descOf (s.params.imem.readWord s.EX.pc)).op = .HALT := (congrArg Desc.op hw).symm.trans hop
  exact of_decide_eq_false hh hop'

theorem haltFetched_of_word {s : State} (hn : s.IF.nop = false) (hr : s.params.imem.inRange s.IF.pc)
    (hw : isHalt (s.params.imem.readWord s.IF.pc) = true) :
    haltFetched s = some (s.params.imem.readWord s.IF.pc) := by
  rw [haltFetched, ifFetch_safe fun _ => hr, fetchedWord_of_valid hn]
  exact if_pos hw

/-- Settles O10: the latch of EX names the instruction, and a HALT in the fetch is the word the advance fetches anyway. -/
theorem stepRunsTheDecodedInstruction : Obligations.StepRunsTheDecodedInstruction := by
  refine ⟨fun _ _ => step_eq_exec_of_holds, fun s hinv hn => ?_, fun s w hn hr hw hh => ?_⟩
  · obtain ⟨-, -, -, hd, -⟩ := hinv
    exact step_eq_exec_of_holds (holds_of_exDecoded hd hn)
  · subst hw
    rw [step_eq_advance, exec_halt_eq_advance (haltFetched_of_word hn hr hh)]

/-! ## WB and the counters (45_pipeline_engine.md R162, R182) -/

/-- Whichever instruction a meaning or a step runs, it commits a cycle's state. -/
theorem nextState_of_exec_or_step {i : Instr} {s t : State} (h : exec i s = .next t ∨ step s = .next t) :
    ∃ fetched ex, t = nextState fetched ex s := by
  obtain h | h := h
  · obtain ⟨fetch, ex, he⟩ := exec_eq_cycleWith i s
    obtain ⟨-, -, -, fetched, -, ht⟩ := cycleWith_next (he.symm.trans h)
    exact ⟨fetched, ex, ht⟩
  · exact ⟨_, _, eq_nextState_of_step h⟩

/-- The register file after WB, as a write of one register. -/
theorem readReg_wbRf_eq (s : State) (r : Reg) : readReg (wbRf s) r =
    if s.WB.nop = false ∧ s.WB.wrtRf = true ∧ r = s.WB.rd ∧ r ≠ 0 then s.WB.wdata else readReg s.rf r := by
  unfold wbRf
  by_cases hw : s.WB.nop = false ∧ s.WB.wrtRf = true
  · rw [if_pos hw, readReg_writeReg]
    simp only [hw, true_and]
  · rw [if_neg hw, if_neg fun h => hw ⟨h.1, h.2.1⟩]

/-- Settles O22: the register file a cycle commits is WB's. -/
theorem onlyWbWritesRegisters : Obligations.OnlyWbWritesRegisters := by
  intro i s t h
  obtain ⟨_, _, rfl⟩ := nextState_of_exec_or_step h
  exact ⟨readReg_wbRf_eq s, rfl⟩

/-! ## MEM (45_pipeline_engine.md R163) -/

/-- The data memory of program order is the one MEM leaves: the store's, or the old one. -/
theorem progDmem_of_no_store {s : State} (h : s.MEM.nop = true ∨ s.MEM.wrtMem = false) : progDmem s = s.dmem :=
  if_neg fun ⟨hn, hw⟩ => h.elim (fun h => nomatch hn.symm.trans h) (fun h => nomatch hw.symm.trans h)

theorem progDmem_of_store {s : State} (hn : s.MEM.nop = false) (hw : s.MEM.wrtMem = true) :
    progDmem s = s.dmem.writeWord s.MEM.aluResult s.MEM.storeData := if_pos ⟨hn, hw⟩

/-- A store in range keeps the canonical form. -/
theorem progDmem_wf {s : State} (hwf : s.dmem.wf = true) (hm : MemSafe s) : (progDmem s).wf = true := by
  unfold progDmem
  split
  next hst => exact Memory.writeWord_wf hwf _ (hm hst.1 (.inr hst.2))
  · exact hwf

/-- Settles O23: the data memory a cycle commits is that of program order, a word write of the store in MEM. -/
theorem everyMeaningLeavesTheRest : Obligations.EveryMeaningLeavesTheRest := by
  intro i s t h
  obtain ⟨_, _, rfl⟩ := nextState_of_exec_or_step h
  refine ⟨rfl, rfl, rfl, progDmem_size s, progDmem_of_no_store, fun hn hw a ha => ?_⟩
  rw [nextState_dmem, progDmem_of_store hn hw, Memory.readByte_writeWord_outside _ _ _ ha]

/-- Settles O21: a safe MEM stage hands on the bubble or the value of its instruction; one out of range is the fault. -/
theorem memStageAccess : Obligations.MemStageAccess := by
  intro s
  refine ⟨step_mem_fault, fun t h => ?_⟩
  obtain rfl := eq_nextState_of_step h
  refine ⟨fun hn => ⟨if_pos hn, progDmem_of_no_store (.inl hn)⟩, fun hn => ⟨?_, ?_⟩⟩
  · rw [nextState_WB, nextWb, if_neg (by simp [hn]), memValue]
  · rw [nextState_dmem, progDmem]
    simp only [hn, true_and]

/-- Settles O37: MEM commits the data memory of program order in this cycle, WB the register file in the next. -/
theorem programOrderStateIsCommitted : Obligations.ProgramOrderStateIsCommitted := by
  intro s t h
  obtain rfl := eq_nextState_of_step h
  refine ⟨rfl, fun u hu => ?_⟩
  rw [eq_nextState_of_step hu, nextState_rf, wbRf_next]

/-! ## EX and ID (45_pipeline_engine.md R165, R171, R173, R181) -/

/-- Settles O24: forwarding picks the youngest older producer, which no load in MEM is. -/
theorem forwardedOperandsAreCurrent : Obligations.ForwardedOperandsAreCurrent := fun _ hn hc =>
  ⟨operandA_eq_progReg hn hc, operandB0_eq_progReg hn hc⟩

theorem nextEx_bubble {redirect : Option Word} {s : State} (h : redirect ≠ none ∨ s.ID.nop = true ∨ stall s = true) :
    nextEx redirect s = .bubble := if_pos h

/-- The EX latch of an instruction that moves on from ID, its registers read after this cycle's WB. -/
theorem nextEx_moves {s : State} (hn : s.ID.nop = false) (hs : stall s = false) : nextEx none s =
    .ofDesc (idDesc s) s.ID.pc (readReg (wbRf s) (idDesc s).rs1) (readReg (wbRf s) (idDesc s).rs2) := by
  rw [readReg_wbRf, readReg_wbRf]
  exact if_neg (by simp [hn, hs])

/-- Settles O25: the two branches of the ID stage. -/
theorem nextExLatch : Obligations.NextExLatch := by
  intro s t h
  obtain rfl := eq_nextState_of_step h
  refine ⟨nextEx_bubble, fun hr hn hs => ?_⟩
  rw [nextState_EX, hr, nextEx_moves hn hs]
  exact ⟨rfl, rfl, rfl, rfl, rfl⟩

theorem stall_of_ex_nop {s : State} (h : s.EX.nop = true) : stall s = false := by simp [stall, h]

theorem exStage_redirect_of_nop {s : State} (h : s.EX.nop = true) : (exStage s).redirect = none := by
  rw [exStage_nop h, ExOut.bubble_redirect]

/-- Settles O28: a stall is a load's and a redirect a branch's, and each leaves EX empty, where neither arises. -/
theorem stallAndRedirectExclusive : Obligations.StallAndRedirectExclusive := by
  intro s hd
  refine ⟨fun ⟨hs, hr⟩ => hr (exStage_redirect_of_stall hd hs), fun t h => ?_⟩
  obtain rfl := eq_nextState_of_step h
  have hempty (hb : (exStage s).redirect ≠ none ∨ s.ID.nop = true ∨ stall s = true) :
      (nextState (fetchedWord s) (exStage s) s).EX.nop = true := by
    rw [nextState_EX, nextEx_bubble hb, EXLatch.bubble_nop]
  exact ⟨fun hs => stall_of_ex_nop (hempty (.inr (.inr hs))), fun hr => exStage_redirect_of_nop (hempty (.inl hr))⟩

/-! ## A redirect hides the two younger stages (45_pipeline_engine.md R177, R191) -/

theorem exStage_valid_of_redirect {s : State} (h : (exStage s).redirect ≠ none) : s.EX.nop = false := by
  by_contra hc
  exact h (exStage_redirect_of_nop (by simpa using hc))

/-- The next state of a redirect, in which nothing depends on the IF latch, the ID latch or the fetch. -/
theorem nextState_redirected (w : Option Word) {s : State} {target : Word} (h : (exStage s).redirect = some target) :
    nextState w (exStage s) s =
      { params := s.params
        IF := { nop := false, pc := target }
        ID := .bubble
        EX := .bubble
        MEM := (exStage s).mem
        WB := nextWb s
        rf := wbRf s
        dmem := progDmem s
        cycle := s.cycle + 1
        retired := wbRetired s
        halted := false } := by
  have hn : s.EX.nop = false := exStage_valid_of_redirect (by simp [h])
  have hh : allNop s = false := by simp [allNop, hn]
  obtain ⟨hif, hid, hex, -⟩ := nextState_of_redirect w s h
  rw [← hif, ← hid, ← hex, ← hh]
  rfl

/-- Settles O30: with a redirect the next IF, ID and EX latches are fixed, and the other stages do not read IF or ID. -/
theorem flushedInstructionsLeaveNoTrace : Obligations.FlushedInstructionsLeaveNoTrace := by
  intro s t t' otherIf otherId hr h h'
  obtain ⟨target, hr⟩ := Option.ne_none_iff_exists'.mp hr
  have hr' : (exStage { s with IF := otherIf, ID := otherId }).redirect = some target := hr
  rw [eq_nextState_of_step h, eq_nextState_of_step h', nextState_redirected _ hr, nextState_redirected _ hr']
  rfl

/-! ## The end of a run (45_pipeline_engine.md R161, R175) -/

/-- IF has stopped and nothing valid is in ID and EX. -/
abbrev FrontEmpty (s : State) : Prop := s.IF.nop = true ∧ s.ID.nop = true ∧ s.EX.nop = true

/-- The state after a cycle in which only MEM and WB have work. -/
def drained (s : State) : State :=
  { s with
    ID := .bubble
    EX := .bubble
    MEM := .bubble
    WB := nextWb s
    rf := wbRf s
    dmem := progDmem s
    cycle := s.cycle + 1
    retired := wbRetired s
    halted := allNop s }

theorem step_of_frontEmpty {s : State} (hf : FrontEmpty s) (hh : s.halted = false) (hm : MemSafe s) :
    step s = .next (drained s) := by
  obtain ⟨hif, hid, hex⟩ := hf
  have hsafe : CycleSafe s := ⟨hh, hm, idSafe_of_empty hid, fun hn => nomatch hif.symm.trans hn⟩
  have hrow := nextIfId_stopped (stall_of_ex_nop hex) hif (fetchedWord s)
  have hidle := nextEx_bubble (redirect := none) (s := s) (.inr (.inl hid))
  rw [step_of_cycleSafe hsafe, exStage_nop hex]
  simp only [nextState, commit, ExOut.bubble_redirect, ExOut.bubble_mem, hrow, hidle, drained]

theorem drained_frontEmpty {s : State} (hf : FrontEmpty s) : FrontEmpty (drained s) := ⟨hf.1, rfl, rfl⟩

theorem drained_memSafe (s : State) : MemSafe (drained s) := fun hn => nomatch hn

theorem allNop_iff (s : State) : allNop s = true ↔ FrontEmpty s ∧ s.MEM.nop = true ∧ s.WB.nop = true := by
  simp [allNop, and_assoc]

/-- An instruction that enters MEM is in flight, and WB's is counted. -/
theorem retired_next {s t : State} (h : step s = .next t) :
    t.retired + inFlight t = s.retired + inFlight s + if s.EX.nop then 0 else 1 := by
  obtain rfl := eq_nextState_of_step h
  have hmem : (exStage s).mem.nop = s.EX.nop := by
    cases hn : s.EX.nop with
    | true => rw [exStage_nop hn]; rfl
    | false => rw [exStage_eq_ofDesc hn]; rfl
  have hwb : (nextWb s).nop = s.MEM.nop := by
    cases hn : s.MEM.nop <;> simp [nextWb, hn]
  simp only [inFlight, nextState_retired, nextState_MEM, nextState_WB, wbRetired, hmem, hwb]
  omega

/-- Settles O32: an empty machine has a safe cycle, in which every stage passes a bubble. -/
theorem finalCycleHalts : Obligations.FinalCycleHalts := by
  intro s hh
  refine ⟨fun ha => ?_, fun t ha h => ?_⟩
  · obtain ⟨hf, hm, hw⟩ := (allNop_iff s).mp ha
    refine ⟨_, step_of_frontEmpty hf hh (fun hn => nomatch hm.symm.trans hn), ?_⟩
    obtain ⟨hif, hid, hex⟩ := hf
    simp [forgetBubbles, drained, nextWb, wbRf, wbRetired, progDmem, ha, hm, hw, hif, hid, hex]
  · rw [eq_nextState_of_step h, nextState_halted, ha]

/-- Settles O44: the instruction in MEM reaches WB, then the registers, and the third cycle finds every latch empty. -/
theorem drainEndsHalted : Obligations.DrainEndsHalted := by
  intro s hh hif hid hex hm hsafe
  have hf : FrontEmpty s := ⟨hif, hid, hex⟩
  have hf1 := drained_frontEmpty hf
  have hf2 := drained_frontEmpty hf1
  have hwb1 : (drained s).WB.nop = false := by simp [drained, nextWb, hm]
  have hh1 : (drained s).halted = false := by simp [drained, allNop, hm]
  have hh2 : (drained (drained s)).halted = false := by
    rw [drained, allNop, hwb1, Bool.and_false]
  have hh3 : (drained (drained (drained s))).halted = true := (allNop_iff _).mpr ⟨hf2, rfl, rfl⟩
  have step1 := step_of_frontEmpty hf hh hsafe
  have step2 := step_of_frontEmpty hf1 hh1 (drained_memSafe _)
  have step3 := step_of_frontEmpty hf2 hh2 (drained_memSafe _)
  refine ⟨drained (drained (drained s)), ?_, hh3, ?_, rfl, ?_, rfl⟩
  · rw [run_next step1, run_next step2, run_next step3, run_zero]
  · exact wbRf_next none .bubble s
  · have hnone : inFlight (drained (drained (drained s))) = 0 := rfl
    have r1 := retired_next step1
    have r2 := retired_next step2
    have r3 := retired_next step3
    rw [hex, if_pos rfl] at r1
    rw [hf1.2.2, if_pos rfl] at r2
    rw [hf2.2.2, if_pos rfl] at r3
    omega

/-! ## The fields of a bubble are not read (10_state.md R34) -/

section
variable (s : State)

@[simp] theorem forgetBubbles_params : (forgetBubbles s).params = s.params := rfl
@[simp] theorem forgetBubbles_rf : (forgetBubbles s).rf = s.rf := rfl
@[simp] theorem forgetBubbles_dmem : (forgetBubbles s).dmem = s.dmem := rfl
@[simp] theorem forgetBubbles_cycle : (forgetBubbles s).cycle = s.cycle := rfl
@[simp] theorem forgetBubbles_retired : (forgetBubbles s).retired = s.retired := rfl
@[simp] theorem forgetBubbles_halted : (forgetBubbles s).halted = s.halted := rfl

@[simp] theorem forgetBubbles_IF_nop : (forgetBubbles s).IF.nop = s.IF.nop := by
  by_cases h : s.IF.nop = true <;> simp [forgetBubbles, h]
@[simp] theorem forgetBubbles_ID_nop : (forgetBubbles s).ID.nop = s.ID.nop := by
  by_cases h : s.ID.nop = true <;> simp [forgetBubbles, h]
@[simp] theorem forgetBubbles_EX_nop : (forgetBubbles s).EX.nop = s.EX.nop := by
  by_cases h : s.EX.nop = true <;> simp [forgetBubbles, h]
@[simp] theorem forgetBubbles_MEM_nop : (forgetBubbles s).MEM.nop = s.MEM.nop := by
  by_cases h : s.MEM.nop = true <;> simp [forgetBubbles, h]
@[simp] theorem forgetBubbles_WB_nop : (forgetBubbles s).WB.nop = s.WB.nop := by
  by_cases h : s.WB.nop = true <;> simp [forgetBubbles, h]
end

/-! A valid latch is kept whole. -/

section
variable {s : State}

theorem forgetBubbles_IF (h : s.IF.nop = false) : (forgetBubbles s).IF = s.IF := if_neg (by simp [h])
theorem forgetBubbles_ID (h : s.ID.nop = false) : (forgetBubbles s).ID = s.ID := if_neg (by simp [h])
theorem forgetBubbles_EX (h : s.EX.nop = false) : (forgetBubbles s).EX = s.EX := if_neg (by simp [h])
theorem forgetBubbles_MEM (h : s.MEM.nop = false) : (forgetBubbles s).MEM = s.MEM := if_neg (by simp [h])
theorem forgetBubbles_WB (h : s.WB.nop = false) : (forgetBubbles s).WB = s.WB := if_neg (by simp [h])
end

/-! Each stage guards what it reads of a latch by the latch's `nop`. -/

section
variable (s : State)

theorem memStage_forgetBubbles : memStage (forgetBubbles s) = memStage s := by
  by_cases h : s.MEM.nop = true
  · simp [memStage, h]
  · simp only [Bool.not_eq_true] at h
    simp [memStage, memDmem, memData, h, forgetBubbles_MEM h]

theorem wbRf_forgetBubbles : wbRf (forgetBubbles s) = wbRf s := by
  by_cases h : s.WB.nop = true
  · simp [wbRf, h]
  · simp only [Bool.not_eq_true] at h
    simp [wbRf, forgetBubbles_WB h]

theorem rfread_forgetBubbles (r : Reg) : rfread (forgetBubbles s) r = rfread s r := by
  rw [← readReg_wbRf, ← readReg_wbRf, wbRf_forgetBubbles]

theorem fwd_forgetBubbles (r : Reg) (v : Word) : fwd (forgetBubbles s) r v = fwd s r v := by
  cases hm : s.MEM.nop <;> cases hw : s.WB.nop <;>
    simp [fwd, MEMLatch.forwards, WBLatch.writes, hm, hw, forgetBubbles_MEM, forgetBubbles_WB]

theorem exStage_forgetBubbles : exStage (forgetBubbles s) = exStage s := by
  by_cases h : s.EX.nop = true
  · rw [exStage_nop h, exStage_nop (by simpa using h)]
  · simp only [Bool.not_eq_true] at h
    have ha (r : Reg) : operandA (forgetBubbles s) r = operandA s r := by
      rw [operandA, operandA, fwd_forgetBubbles, forgetBubbles_EX h]
    have hb (r : Reg) : operandB0 (forgetBubbles s) r = operandB0 s r := by
      rw [operandB0, operandB0, fwd_forgetBubbles, forgetBubbles_EX h]
    rw [exStage_eq_ofDesc h, exStage_eq_ofDesc (by simpa using h), forgetBubbles_EX h]
    unfold ExOut.ofDesc
    rw [ha, hb, forgetBubbles_EX h]

theorem stall_forgetBubbles : stall (forgetBubbles s) = stall s := by
  by_cases hd : s.ID.nop = true
  · simp [stall, hd]
  by_cases hx : s.EX.nop = true
  · simp [stall, hx]
  · simp only [Bool.not_eq_true] at hd hx
    simp only [stall, idDesc, forgetBubbles_ID hd, forgetBubbles_EX hx]

theorem idStage_forgetBubbles (redirect : Option Word) : idStage redirect (forgetBubbles s) = idStage redirect s := by
  by_cases h : s.ID.nop = true
  · simp [idStage, h]
  · simp only [Bool.not_eq_true] at h
    unfold idStage
    rw [stall_forgetBubbles, idDesc, forgetBubbles_ID h, rfread_forgetBubbles, rfread_forgetBubbles, forgetBubbles_params]
    rfl

theorem ifFetch_forgetBubbles : ifFetch (forgetBubbles s) = ifFetch s := by
  by_cases h : s.IF.nop = true
  · simp [ifFetch, h]
  · simp only [Bool.not_eq_true] at h
    simp only [ifFetch, forgetBubbles_IF h, forgetBubbles_params]

theorem allNop_forgetBubbles : allNop (forgetBubbles s) = allNop s := by simp [allNop]

theorem wbRetired_forgetBubbles : wbRetired (forgetBubbles s) = wbRetired s := by simp [wbRetired]

/-- The IF and ID latches held in place, by a stall or after a HALT, are forgotten afterwards as they were before. -/
theorem commit_forgetBubbles (dmem : Memory) (wb : WBLatch) (ex : ExOut) (l : EXLatch) (w : Option Word) :
    forgetBubbles (commit (forgetBubbles s) dmem wb ex l w) = forgetBubbles (commit s dmem wb ex l w) := by
  simp only [commit, nextIfId, stall_forgetBubbles, wbRf_forgetBubbles, allNop_forgetBubbles, wbRetired_forgetBubbles]
  simp only [forgetBubbles_params, forgetBubbles_cycle, forgetBubbles_IF_nop]
  cases ex.redirect with
  | some target => rfl
  | none =>
    by_cases hs : stall s = true
    · obtain ⟨hd, -⟩ := stall_true hs
      cases hf : s.IF.nop <;> simp [hs, forgetBubbles, hd, hf]
    by_cases hf : s.IF.nop = true
    · simp [hs, hf, forgetBubbles]
    · simp only [Bool.not_eq_true] at hf
      simp [hs, hf, forgetBubbles_IF]

end

/-- Settles O31: the stages of the cycle answer the same, and what is committed differs in forgotten fields only. -/
theorem bubbleFieldsUnobservable : Obligations.BubbleFieldsUnobservable := by
  intro s
  rw [step_eq_advance, step_eq_advance, advance, advance, cycle, cycle, exStage_forgetBubbles, ifFetch_forgetBubbles]
  unfold cycleWith
  rw [memStage_forgetBubbles, idStage_forgetBubbles, forgetBubbles_halted]
  split
  · rfl
  split
  · rfl
  split
  · rfl
  split
  · rfl
  · exact congrArg Host.Outcome.next (commit_forgetBubbles s _ _ _ _ _)

end Sys2Proof.Machine
end

section
/-! PROOFS. Words across MEM's accesses (20_memory.md R64, R71), and the results of OPIMM_ZERO, LW, SW, JAL and HALT
(41_integer.md R121, 42_load_store.md R131, R132, 43_control_transfer.md R143, 44_halt.md R150). -/

namespace Sys2Proof.Machine

/-! ## Memory -/

/-- The three low bytes of a word are its bits 23:0. -/
theorem low_bytes (v : Word) : byteOfWord v 1 ++ byteOfWord v 2 ++ byteOfWord v 3 = v.extractLsb' 0 24 := by
  simp only [byteOfWord]
  rw [BitVec.extractLsb'_append_extractLsb'_eq_extractLsb' (by decide),
    BitVec.extractLsb'_append_extractLsb'_eq_extractLsb' (by decide)]

/-- Settles O35: bytes 1 to 3 of the store, and the byte above them, which it left alone. -/
theorem overlappingLoadMixesBytes : Obligations.OverlappingLoadMixesBytes := by
  intro m a v hwf ha
  have hsize : m.size ≤ 4294967296 := Memory.wf_size hwf
  have hnext : (a + 1).toNat = a.toNat + 1 := by bv_omega
  have hr : m.inRange a := by
    unfold Memory.inRange
    omega
  have hin := fun k hk => Memory.readByte_writeWord_inside hwf v hr (k := k) hk
  rw [Memory.readWord, hnext, hin 1 (by decide), hin 2 (by decide), hin 3 (by decide),
    Memory.readByte_writeWord_outside _ _ _ (.inr (by omega)), wordOfBytes, low_bytes]

/-- Settles O34: the load reads the memory MEM has just committed. -/
theorem loadAfterStoreReadsBack : Obligations.LoadAfterStoreReadsBack := by
  intro s t u hwf hn hst h htn hload haddr hu
  obtain ⟨-, hsafe, -⟩ := cycleSafe_of_step h
  have hdm : t.dmem = s.dmem.writeWord s.MEM.aluResult s.MEM.storeData := by
    rw [eq_nextState_of_step h, nextState_dmem, progDmem_of_store hn hst]
  have hvalue : memValue t = s.MEM.storeData := by
    rw [memValue, if_pos hload, hdm, haddr, Memory.readWord_writeWord hwf _ (hsafe hn (.inr hst))]
  rw [eq_nextState_of_step hu, nextState_WB, nextWb, if_neg (by simp [htn])]
  exact ⟨rfl, hvalue⟩

/-! ## OPIMM_ZERO (41_integer.md R121; D15) -/

/-- The four funct3 values of 30_encoding.md R97 are those that select no OP-IMM operation. -/
theorem descOf_unmatched (rd rs1 : Reg) (imm : BitVec 12) {f3 : BitVec 3} (h : f3 ∈ [0b001#3, 0b010#3, 0b011#3, 0b101#3]) :
    descOf (imm ++ rs1 ++ f3 ++ rd ++ 0b0010011#7) = (Instr.opimmZero f3 rd rs1 imm).desc := by
  have hwf : ∀ f3 ∈ [0b001#3, 0b010#3, 0b011#3, 0b101#3], (!isOpImmFunct3 f3) = true := by decide
  exact congrArg Instr.desc (Laws.EncodeDecode.opimmZero f3 rd rs1 imm (hwf f3 h))

/-- Settles O14: in EX the meaning is the constant 0; in ID the kind and the parameter decide. -/
theorem unmatchedOpImmIsZeroOrRefused : Obligations.UnmatchedOpImmIsZeroOrRefused := by
  refine ⟨fun s rd rs1 imm f3 => completesWith_of_execRegImm (f := fun _ _ => 0) rfl (fun _ _ => rfl) rfl,
    fun s rd rs1 imm f3 hf3 hh hm hr hs hn hw => ?_⟩
  have hd : idDesc s = (Instr.opimmZero f3 rd rs1 imm).desc := by
    rw [idDesc, hw]
    exact descOf_unmatched rd rs1 imm hf3
  refine ⟨fun hp => step_id_refused hh hm fun hsafe => ?_, fun hp hf => ?_⟩
  · exact hsafe hr hn hs hp (congrArg Desc.op hd)
  · have hid : IdSafe (exStage s).redirect s := fun _ _ _ hp' => nomatch hp.symm.trans hp'
    refine ⟨_, step_of_cycleSafe ⟨hh, hm, hid, hf⟩, ?_⟩
    rw [nextState_EX, hr, nextEx_moves hn hs, hd]
    exact ⟨rfl, rfl, nofun⟩

/-! ## LW and SW (42_load_store.md R131, R132) -/

/-- After a cycle with an instruction in EX the machine runs on. -/
theorem nextState_halted_of_ex (w : Option Word) (ex : ExOut) {s : State} (hn : s.EX.nop = false) :
    (nextState w ex s).halted = false := by
  simp [allNop, hn]

/-- An access EX hands on whose word is not inside DMEM is the fault of the next cycle. -/
theorem step_fault_after_access (w : Option Word) {ex : ExOut} {s : State} (hn : s.EX.nop = false)
    (hm : ex.mem.nop = false) (ha : ex.mem.rdMem = true ∨ ex.mem.wrtMem = true)
    (hr : ¬s.dmem.inRange ex.mem.aluResult) :
    step (nextState w ex s) = .fault (.dataOutOfRange ex.mem.aluResult) := by
  refine step_mem_fault (nextState_halted_of_ex w ex hn) fun hsafe => hr ?_
  have hin := hsafe hm ha
  rw [nextState_dmem, nextState_MEM, Memory.inRange, progDmem_size] at hin
  exact hin

/-- Settles O16: EX hands the load on with its address, MEM's value is the word of program order there. -/
theorem loadWordResult : Obligations.LoadWordResult := by
  intro s f3 rd rs1 imm he
  have hx := exec_next_of_executes he (fun _ _ => rfl) rfl rfl
  have ha : operandA s rs1 = progReg s rs1 := operandA_of_executes he
  obtain ⟨⟨hn, -⟩, -, hp, -⟩ := he
  rw [ha] at hx
  refine ⟨_, hx, rfl, rfl, rfl, rfl, rfl, fun _ r => ?_, fun _ => rfl, progPc_seq _ s hp hn rfl, ?_⟩
  · rw [progReg, progRf_next, if_pos ⟨rfl, rfl⟩, readReg_writeReg]
    rfl
  · exact fun hr => step_fault_after_access _ hn rfl (.inl rfl) hr

/-- A word write, byte by byte. -/
theorem readByte_writeWord {m : Memory} (h : m.wf = true) {a : Word} (v : Word) (ha : m.inRange a) (x : Nat) :
    (m.writeWord a v).readByte x =
      if a.toNat ≤ x ∧ x < a.toNat + 4 then byteOfWord v (x - a.toNat) else m.readByte x := by
  split
  next hx =>
    obtain ⟨k, rfl⟩ := Nat.exists_eq_add_of_le hx.1
    rw [Memory.readByte_writeWord_inside h v ha (by omega), Nat.add_sub_cancel_left]
  next hx => exact Memory.readByte_writeWord_outside m a v (by omega)

/-- Settles O17: EX hands the store on with its address and data, and MEM writes that word. -/
theorem storeWordResult : Obligations.StoreWordResult := by
  intro s f3 rs1 rs2 imm he hwf
  have hx := exec_next_of_executes he (fun _ _ => rfl) rfl rfl
  have ha : operandA s rs1 = progReg s rs1 := operandA_of_executes he
  have hb : operandB0 s rs2 = progReg s rs2 := operandB0_of_executes he
  obtain ⟨⟨hn, -⟩, -, hp, -, hm, -⟩ := he
  rw [ha, hb] at hx
  refine ⟨_, hx, rfl, rfl, rfl, rfl, rfl, fun _ => ?_, progPc_seq _ s hp hn rfl, fun hr a => ?_, ?_⟩
  · exact progReg_next_of_not_written _ s nofun
  · have hr' : (progDmem s).inRange (progReg s rs1 + imm.signExtend 32) := by
      rw [Memory.inRange, progDmem_size]
      exact hr
    rw [progByte, progDmem_next, if_pos ⟨rfl, rfl⟩]
    exact readByte_writeWord (progDmem_wf hwf hm) _ hr' a
  · exact fun hr => step_fault_after_access _ hn rfl (.inr rfl) hr

/-! ## JAL (43_control_transfer.md R143) -/

/-- What EX of a JAL hands on: the link for `rd`, and the redirect. -/
def ExOut.jump (rd : Reg) (link target b0 : Word) : ExOut :=
  { mem := { nop := false, aluResult := link, storeData := b0, rd, rdMem := false, wrtMem := false, wrtRf := true }
    redirect := some target }

theorem exec_jal_eq_cycle (rd : Reg) (off : BitVec 21) (s : State) : exec (.jal rd off) s =
    cycle (.jump rd (s.EX.pc + 4) (s.EX.pc + off.signExtend 32) (operandB0 s 0)) s := by
  rw [exec, execJal]
  rfl

/-- Settles O19: JAL's kind is always taken, and its link goes to rd as any result does. -/
theorem jumpAndLinkResult : Obligations.JumpAndLinkResult := by
  intro s rd off he
  obtain ⟨hex, -, -, hh, hm, hid, hf⟩ := he
  rw [exStage_redirect_of_holds hex] at hid
  refine ⟨_, (exec_jal_eq_cycle rd off s).trans (cycle_safe hh hm hid hf), ⟨rfl, rfl, rfl, rfl, rfl, rfl⟩, fun r => ?_,
    fun _ => rfl, nextState_of_redirect _ s rfl⟩
  rw [progReg, progRf_next, if_pos ⟨rfl, rfl⟩, readReg_writeReg]
  rfl

/-! ## HALT (44_halt.md R150) -/

/-- With EX empty a cycle that fetches a HALT leaves program order where it was. -/
theorem progPc_next_of_halt {s : State} {w : Word} (hw : isHalt w = true) (hf : s.IF.nop = false) (hn : s.EX.nop = true) :
    progPc (nextState (some w) (exStage s) s) = progPc s := by
  have hs := stall_of_ex_nop hn
  unfold progPc
  rw [nextState_EX, nextState_ID, nextState_IF, exStage_redirect_of_nop hn, nextIfId_halt hs hf hw]
  cases hd : s.ID.nop with
  | false => simp [nextEx_moves hd hs, hn]
  | true => simp [nextEx_bubble (.inr (.inl hd)), hn]

/-- Settles O20: HALT's cycle is the advance's with the HALT as the word fetched, so the rows of the next IF and ID latches
decide. -/
theorem haltResult : Obligations.HaltResult := by
  intro s w hw hf hh hm hid
  have hx : exec (.halt w) s = .next (nextState (some w) (exStage s) s) := cycleWith_safe _ hh hm hid
  refine ⟨_, hx, fun target hr => ?_, fun hr hs => ?_, fun hr hs => ?_, fun hn => ⟨fun r => ?_, fun _ => ?_, ?_⟩⟩
  · obtain ⟨hif, hid, -⟩ := nextState_of_redirect (some w) s hr
    exact ⟨hif, hid⟩
  · exact nextState_IF_ID (by rw [hr, nextIfId_stall hs])
  · exact nextState_IF_ID (by rw [hr, nextIfId_halt hs hf hw])
  · rw [progReg, progRf_next, exStage_nop hn]
    rfl
  · rw [progByte, progDmem_next, exStage_nop hn]
    rfl
  · exact progPc_next_of_halt hw hf hn

/-! ## CPI and IPC (45_pipeline_engine.md R193) -/

/-- Settles O45: each is the other's reciprocal. -/
theorem cpiTimesIpcIsOne : Obligations.CpiTimesIpcIsOne := by
  intro s hr hc
  refine ⟨_, _, if_neg hr, if_neg hc, ?_⟩
  have hr' : (s.retired : Rat) ≠ 0 := Nat.cast_ne_zero.mpr hr
  have hc' : (s.cycle : Rat) ≠ 0 := Nat.cast_ne_zero.mpr hc
  field_simp

end Sys2Proof.Machine
end

section
/-! PROOFS. The invariant of the pipeline (45_pipeline_engine.md R169, R188, R189): it holds at reset and every step
keeps it. -/

namespace Sys2Proof.Machine

/-! ## Reset (10_state.md R38) -/

theorem readReg_reset (r : Reg) : readReg .reset r = 0 := by
  by_cases h : r = 0
  · rw [h, readReg_zero]
  · rw [readReg_nonzero _ h, RegFile.reset, Vector.getElem_replicate]

theorem resetWith_invariant {p : Params} (h : ParamsWf p) : Invariant (.resetWith p) := by
  obtain ⟨hi, hd⟩ := h
  refine ⟨?_, ⟨hi, hd, hd, rfl⟩, ?_, ?_, ?_, ?_, ?_, ⟨?_, ?_, ?_⟩, ?_, ?_⟩
  · simp [RegZero, RegFile.reset]
  all_goals simp

/-- Settles O38: at reset the latches are bubbles and the memories those of the parameters. -/
theorem resetMeetsInvariant : Obligations.ResetMeetsInvariant :=
  ⟨fun _ => resetWith_invariant, resetWith_invariant (by decide)⟩

/-- Settles O39: the reset state does not look at the state it replaces. -/
theorem resetValues : Obligations.ResetValues := fun _ =>
  ⟨rfl, rfl, rfl, rfl, rfl, readReg_reset, rfl, rfl, rfl, rfl, rfl⟩

/-! ## What the front of the pipeline does in a step (45_pipeline_engine.md R173, R176 to R180) -/

/-- The three younger latches after a step: flushed by a redirect, held by a stall, or moved on, in which case IF had
stopped, fetches a HALT, or fetches an instruction. -/
theorem step_front {s t : State} (h : step s = .next t) :
    (∃ target, (exStage s).redirect = some target ∧ t.IF = { nop := false, pc := target } ∧ t.ID = .bubble ∧
      t.EX = .bubble) ∨
    (stall s = true ∧ t.IF = s.IF ∧ t.ID = s.ID ∧ t.EX = .bubble) ∨
    (stall s = false ∧ t.EX = nextEx none s ∧
      (s.IF.nop = true ∧ t.IF = s.IF ∧ t.ID = .bubble ∨
       s.IF.nop = false ∧ s.params.imem.inRange s.IF.pc ∧ isHalt (s.params.imem.readWord s.IF.pc) = true ∧
        t.IF = { nop := true, pc := s.IF.pc } ∧ t.ID.nop = true ∨
       s.IF.nop = false ∧ FetchedInstr s s.IF.pc ∧ t.IF = { nop := false, pc := pcPlus4 s.IF.pc } ∧
        t.ID = { nop := false, pc := s.IF.pc, instr := s.params.imem.readWord s.IF.pc })) := by
  obtain ⟨-, -, -, hf⟩ := cycleSafe_of_step h
  obtain rfl := eq_nextState_of_step h
  simp only [nextState_IF, nextState_ID, nextState_EX]
  cases hr : (exStage s).redirect with
  | some target => exact .inl ⟨target, rfl, rfl, rfl, nextEx_bubble (.inl (Option.some_ne_none target))⟩
  | none =>
    cases hs : stall s with
    | true =>
      rw [nextIfId_stall hs]
      exact .inr (.inl ⟨rfl, rfl, rfl, nextEx_stall hs⟩)
    | false =>
      refine .inr (.inr ⟨rfl, rfl, ?_⟩)
      cases hn : s.IF.nop with
      | true =>
        rw [nextIfId_stopped hs hn]
        exact .inl ⟨rfl, rfl, rfl⟩
      | false =>
        rw [fetchedWord_of_valid hn]
        cases hw : isHalt (s.params.imem.readWord s.IF.pc) with
        | true =>
          rw [nextIfId_halt hs hn hw]
          exact .inr (.inl ⟨rfl, hf hn, rfl, rfl, rfl⟩)
        | false =>
          rw [nextIfId_fetch hs hn hw]
          exact .inr (.inr ⟨rfl, ⟨hf hn, hw⟩, rfl, rfl⟩)

/-- A valid EX latch after a step holds the instruction that was in ID, its registers read after WB. -/
theorem step_EX_valid {s t : State} (h : step s = .next t) (hn : t.EX.nop = false) :
    (exStage s).redirect = none ∧ s.ID.nop = false ∧ stall s = false ∧
      t.EX = .ofDesc (idDesc s) s.ID.pc (readReg t.rf (idDesc s).rs1) (readReg t.rf (idDesc s).rs2) := by
  obtain rfl := eq_nextState_of_step h
  have hmoved : ¬((exStage s).redirect ≠ none ∨ s.ID.nop = true ∨ stall s = true) := fun hb => by
    rw [nextState_EX, nextEx_bubble hb] at hn
    cases hn
  simp only [not_or, ne_eq, not_not, Bool.not_eq_true] at hmoved
  obtain ⟨hr, hd, hs⟩ := hmoved
  exact ⟨hr, hd, hs, by rw [nextState_EX, hr, nextEx_moves hd hs, nextState_rf]⟩

/-- The hazard of 45_pipeline_engine.md R172, both ways. -/
theorem stall_iff {s : State} : stall s = true ↔
    s.ID.nop = false ∧ s.EX.nop = false ∧ s.EX.rdMem = true ∧ s.EX.rd ≠ 0 ∧
      ((idDesc s).rs1 = s.EX.rd ∨ (idDesc s).rs2 = s.EX.rd) := by
  simp [stall, and_assoc]

/-- No kind of instruction both loads and stores (30_encoding.md R93). -/
theorem op_wrtMem_of_rdMem {op : OpKind} (h : op.rdMem = true) : op.wrtMem = false := by
  cases op with
  | SW => cases h
  | _ => rfl

/-! ## Every step keeps each part of the invariant -/

section
variable {s t : State} (h : step s = .next t)
include h

theorem step_keeps_regZero (hz : RegZero s) : RegZero t := by
  obtain rfl := eq_nextState_of_step h
  rw [RegZero, nextState_rf, wbRf]
  split
  · rw [writeReg_zero_slot]
    exact hz
  · exact hz

theorem step_keeps_memoriesWf (hm : MemoriesWf s) : MemoriesWf t := by
  obtain ⟨hi, hd, hwf, hsize⟩ := hm
  obtain ⟨-, hsafe, -⟩ := cycleSafe_of_step h
  obtain rfl := eq_nextState_of_step h
  exact ⟨hi, hd, progDmem_wf hwf hsafe, (progDmem_size s).trans hsize⟩

theorem step_keeps_idFetched (hd : IdFetched s) : IdFetched t := by
  have hp := step_params h
  rw [IdFetched, FetchedInstr, hp]
  obtain ⟨_, -, -, hid, -⟩ | ⟨-, -, hid, -⟩ | ⟨-, -, ⟨-, -, hid⟩ | ⟨-, -, -, -, hid⟩ | ⟨-, hw, -, hid⟩⟩ :=
    step_front h
  · rw [hid]
    exact nofun
  · rw [hid]
    exact hd
  · rw [hid]
    exact nofun
  · rw [hid]
    exact nofun
  · rw [hid]
    exact fun _ => ⟨hw, rfl⟩

theorem step_gives_exDecoded (hd : IdFetched s) : ExDecoded t := by
  intro hn
  obtain ⟨-, hid, -, hex⟩ := step_EX_valid h hn
  obtain ⟨hw, hi⟩ := hd hid
  rw [FetchedInstr, step_params h, hex, ofDesc_pc, ofDesc_desc, idDesc, hi]
  exact ⟨hw, rfl⟩

theorem step_gives_exOperands : ExOperands t := by
  intro hn
  obtain ⟨-, -, -, hex⟩ := step_EX_valid h hn
  rw [hex]
  exact ⟨rfl, rfl⟩

/-- A load in EX whose result the instruction in ID reads would have stalled it. -/
theorem step_gives_noLoadInMemFeedsEx : NoLoadInMemFeedsEx t := by
  rintro ⟨hn, hm, hload, h0, hrd⟩
  obtain ⟨-, hid, hs, hex⟩ := step_EX_valid h hn
  have hmem : t.MEM = (exStage s).mem := by rw [eq_nextState_of_step h, nextState_MEM]
  rw [hmem] at hm hload h0 hrd
  rw [hex] at hrd
  have hxn : s.EX.nop = false := by
    by_contra hc
    rw [exStage_nop (by simpa using hc)] at hm
    cases hm
  rw [exStage_eq_ofDesc hxn] at hload h0 hrd
  cases hs.symm.trans (stall_iff.mpr ⟨hid, hxn, hload, h0, hrd.imp Eq.symm Eq.symm⟩)

theorem step_keeps_stoppedAtHalt (hst : StoppedAtHalt s) : StoppedAtHalt t := by
  rw [StoppedAtHalt, step_params h]
  obtain ⟨_, -, hif, -⟩ | ⟨-, hif, hid, -⟩ | ⟨-, -, ⟨hn, hif, hid⟩ | ⟨-, hr, hw, hif, hid⟩ | ⟨-, -, hif, -⟩⟩ :=
    step_front h
  · rw [hif]
    exact nofun
  · rw [hif, hid]
    exact hst
  · rw [hif, hid]
    exact fun _ => ⟨rfl, (hst hn).2⟩
  · rw [hif]
    exact fun _ => ⟨hid, hr, hw⟩
  · rw [hif]
    exact nofun

theorem step_keeps_pcsInSequence (hp : PcsInSequence s) : PcsInSequence t := by
  obtain ⟨hseq, -⟩ := hp
  obtain ⟨_, -, hif, hid, hex⟩ | ⟨-, hif, hid, hex⟩ | ⟨-, -, hrow⟩ := step_front h
  · rw [PcsInSequence, hid, hex]
    exact ⟨nofun, nofun, nofun⟩
  · rw [PcsInSequence, hif, hid, hex]
    exact ⟨hseq, nofun, nofun⟩
  · have hexpc (hn : t.EX.nop = false) : s.IF.pc = pcPlus4 t.EX.pc := by
      obtain ⟨-, hd, -, hex⟩ := step_EX_valid h hn
      rw [hex, ofDesc_pc]
      exact hseq hd
    obtain ⟨-, hif, hid⟩ | ⟨-, -, -, hif, hid⟩ | ⟨-, -, hif, hid⟩ := hrow
    · rw [PcsInSequence, hif, hid]
      exact ⟨nofun, nofun, fun hn _ => hexpc hn⟩
    · rw [PcsInSequence, hif, hid]
      exact ⟨nofun, nofun, fun hn _ => hexpc hn⟩
    · rw [PcsInSequence, hif, hid]
      exact ⟨fun _ => rfl, fun hn _ => hexpc hn, nofun⟩

theorem step_gives_memOneAccess (hd : ExDecoded s) : MemOneAccess t := by
  obtain rfl := eq_nextState_of_step h
  rw [MemOneAccess, nextState_MEM]
  by_cases hn : s.EX.nop = true
  · rw [exStage_nop hn]
    exact nofun
  · rw [Bool.not_eq_true] at hn
    obtain ⟨-, hw⟩ := hd hn
    obtain ⟨-, hr, hs, -⟩ := desc_flags (decodeWord (s.params.imem.readWord s.EX.pc))
    rw [exStage_eq_ofDesc hn, hw]
    rintro ⟨hload, hstore⟩
    cases (hs.symm.trans hstore).symm.trans (op_wrtMem_of_rdMem (hr.symm.trans hload))

/-- The cycle that halts found every latch empty and leaves them so. -/
theorem step_gives_haltedEmpty : HaltedEmpty t := by
  intro hh
  obtain ⟨hsh, hm, -⟩ := cycleSafe_of_step h
  have ha : allNop s = true := by
    rw [eq_nextState_of_step h] at hh
    exact hh
  obtain ⟨hf, hmem, hwb⟩ := (allNop_iff s).mp ha
  rw [step_of_frontEmpty hf hsh hm] at h
  cases h
  exact (allNop_iff _).mpr ⟨drained_frontEmpty hf, rfl, by simp [drained, nextWb, hmem]⟩

end

/-- Settles O40: part by part. -/
theorem stepKeepsInvariant : Obligations.StepKeepsInvariant := by
  rintro s t ⟨hz, hm, hid, hex, -, -, hst, hp, -, -⟩ h
  exact ⟨step_keeps_regZero h hz, step_keeps_memoriesWf h hm, step_keeps_idFetched h hid, step_gives_exDecoded h hid,
    step_gives_exOperands h, step_gives_noLoadInMemFeedsEx h, step_keeps_stoppedAtHalt h hst, step_keeps_pcsInSequence h hp,
    step_gives_memOneAccess h hex, step_gives_haltedEmpty h⟩

end Sys2Proof.Machine
end

section
/-! PROOFS. The ports (45_pipeline_engine.md R186; D33): what a step reads and writes stands on them, and it reads IMEM, the
register file and the data memory in no other way. -/

namespace Sys2Proof.Machine

/-! ## What the ports carry -/

theorem ports_fault_iff (s : State) (f : Fault) : (ports s).fault = some f ↔ step s = .fault f := by
  rw [step_eq_advance]
  simp only [ports]
  cases advance s <;> simp

section
variable {s : State}

theorem ports_imemAddr (hn : s.IF.nop = false) : (ports s).imemAddr = some s.IF.pc := if_neg (by simp [hn])

theorem ports_imemAddr_some {a : Word} (h : (ports s).imemAddr = some a) : s.IF.nop = false ∧ s.IF.pc = a := by
  simpa [ports] using h

theorem ports_imemRdata (hf : FetchSafe s) : (ports s).imemRdata = fetchedWord s := by
  simp only [ports, ifFetch_safe hf]

theorem ports_rfRead (hn : s.ID.nop = false) : (ports s).rfRead = some ((idDesc s).rs1, (idDesc s).rs2) :=
  if_neg (by simp [hn])

theorem ports_rfRdata (hn : s.ID.nop = false) :
    (ports s).rfRdata = some (rfread s (idDesc s).rs1, rfread s (idDesc s).rs2) := if_neg (by simp [hn])

theorem ports_dmemRead (hn : s.MEM.nop = false) (hl : s.MEM.rdMem = true) : (ports s).dmemRead = some s.MEM.aluResult :=
  if_pos ⟨hn, hl⟩

theorem ports_dmemRead_some {a : Word} (h : (ports s).dmemRead = some a) :
    s.MEM.nop = false ∧ s.MEM.rdMem = true ∧ s.MEM.aluResult = a := by
  simpa [ports, and_assoc] using h

theorem ports_dmemRdata (hn : s.MEM.nop = false) (hl : s.MEM.rdMem = true) (hm : MemSafe s) :
    (ports s).dmemRdata = some (memValue s) := by
  simp only [ports, hn, hl, and_self, if_true, memRead_ok (hm hn (.inl hl)), memValue]

theorem ports_dmemWrite (hn : s.MEM.nop = false) (hw : s.MEM.wrtMem = true) :
    (ports s).dmemWrite = some (s.MEM.aluResult, s.MEM.storeData) := if_pos ⟨hn, hw⟩

theorem ports_dmemRead_none (h : s.MEM.rdMem = false) : (ports s).dmemRead = none := if_neg (by simp [h])

theorem ports_dmemWrite_none (h : s.MEM.wrtMem = false) : (ports s).dmemWrite = none := if_neg (by simp [h])
end

/-! ## Every access of a step is on a port -/

section
variable {s t : State} (h : step s = .next t)
include h

/-- The word that enters ID was fetched, whether it is a HALT or not. -/
theorem step_ID_fetched (hr : (exStage s).redirect = none) (hs : stall s = false) (hn : s.IF.nop = false) :
    t.ID.pc = s.IF.pc ∧ t.ID.instr = s.params.imem.readWord s.IF.pc := by
  obtain rfl := eq_nextState_of_step h
  rw [nextState_ID, hr, fetchedWord_of_valid hn]
  cases hw : isHalt (s.params.imem.readWord s.IF.pc) with
  | true =>
    rw [nextIfId_halt hs hn hw]
    exact ⟨rfl, rfl⟩
  | false =>
    rw [nextIfId_fetch hs hn hw]
    exact ⟨rfl, rfl⟩

theorem step_rf_of_ports : t.rf = (ports s).writeRf s.rf := by
  rw [eq_nextState_of_step h, ports_writeRf]
  rfl

theorem step_dmem_of_ports : t.dmem = (ports s).writeDmem s.dmem := by
  rw [eq_nextState_of_step h, ports_writeDmem]
  rfl

theorem step_operands_of_ports (hn : t.EX.nop = false) :
    (ports s).rfRead = some (t.EX.rs1, t.EX.rs2) ∧ (ports s).rfRdata = some (t.EX.rv1, t.EX.rv2) := by
  obtain ⟨-, hd, -, hex⟩ := step_EX_valid h hn
  have hrf : t.rf = wbRf s := by rw [eq_nextState_of_step h, nextState_rf]
  rw [ports_rfRead hd, ports_rfRdata hd, hex, hrf, readReg_wbRf, readReg_wbRf]
  exact ⟨rfl, rfl⟩

theorem step_load_of_ports (hn : s.MEM.nop = false) (hl : s.MEM.rdMem = true) :
    (ports s).dmemRead = some s.MEM.aluResult ∧ (ports s).dmemRdata = some t.WB.wdata := by
  obtain ⟨-, hm, -⟩ := cycleSafe_of_step h
  rw [ports_dmemRead hn hl, ports_dmemRdata hn hl hm, eq_nextState_of_step h, nextState_WB, nextWb,
    if_neg (by simp [hn])]
  exact ⟨rfl, rfl⟩

end

/-- Settles O36: port by port. -/
theorem portsCarryEveryAccess : Obligations.PortsCarryEveryAccess := by
  refine fun s => ⟨ports_fault_iff s, fun t h => ?_⟩
  obtain ⟨-, hm, -, hf⟩ := cycleSafe_of_step h
  refine ⟨step_rf_of_ports h, step_dmem_of_ports h, fun hr hs hn => ?_, step_operands_of_ports h, step_load_of_ports h,
    fun a ha => ?_, fun a ha => ?_, fun hone => ?_⟩
  · obtain ⟨hpc, hi⟩ := step_ID_fetched h hr hs hn
    rw [ports_imemAddr hn, ports_imemRdata hf, fetchedWord_of_valid hn, hpc, hi]
    exact ⟨rfl, rfl⟩
  · obtain ⟨hn, rfl⟩ := ports_imemAddr_some ha
    exact hf hn
  · obtain ⟨hn, hl, rfl⟩ := ports_dmemRead_some ha
    exact hm hn (.inl hl)
  · cases hl : s.MEM.rdMem with
    | false => exact .inl (ports_dmemRead_none hl)
    | true => exact .inr (ports_dmemWrite_none (by simpa [hl] using hone))

/-! ## A step with other memories behind the ports -/

/-- `s` with another instruction memory, register file and data memory. -/
abbrev State.withStores (s : State) (imem : Memory) (rf : RegFile) (dmem : Memory) : State :=
  { s with params := { s.params with imem }, rf, dmem }

/-- The other stores answer the read ports of `s` as its own do, and hold the address on its data write port. -/
structure AnswersAlike (s : State) (imem : Memory) (rf : RegFile) (dmem : Memory) : Prop where
  fetch : ∀ a, (ports s).imemAddr = some a → imem.inRange a ∧ imem.readWord a = s.params.imem.readWord a
  regs : ∀ r1 r2, (ports s).rfRead = some (r1, r2) → readReg rf r1 = readReg s.rf r1 ∧ readReg rf r2 = readReg s.rf r2
  load : ∀ a, (ports s).dmemRead = some a → dmem.inRange a ∧ dmem.readWord a = s.dmem.readWord a
  store : ∀ a v, (ports s).dmemWrite = some (a, v) → dmem.inRange a

/-- A register read in ID sees WB's write, or a register the port reads. -/
theorem rfread_withStores {s : State} {rf : RegFile} (imem dmem : Memory) {r : Reg} (hr : readReg rf r = readReg s.rf r) :
    rfread (s.withStores imem rf dmem) r = rfread s r := by
  unfold rfread
  rw [hr]

section
variable {s : State} {imem dmem : Memory} {rf : RegFile} (h : AnswersAlike s imem rf dmem)
include h

theorem memSafe_withStores : MemSafe (s.withStores imem rf dmem) := by
  intro hn hacc
  obtain hl | hw := hacc
  · exact (h.load _ (ports_dmemRead hn hl)).1
  · exact h.store _ _ (ports_dmemWrite hn hw)

theorem fetchSafe_withStores : FetchSafe (s.withStores imem rf dmem) := fun hn => (h.fetch _ (ports_imemAddr hn)).1

theorem fetchedWord_withStores : fetchedWord (s.withStores imem rf dmem) = fetchedWord s := by
  cases hn : s.IF.nop with
  | true => simp [fetchedWord, hn]
  | false =>
    rw [fetchedWord_of_valid hn, fetchedWord_of_valid (s := s.withStores imem rf dmem) hn]
    exact congrArg some (h.fetch _ (ports_imemAddr hn)).2

theorem nextWb_withStores : nextWb (s.withStores imem rf dmem) = nextWb s := by
  unfold nextWb memValue
  cases hn : s.MEM.nop with
  | true => rfl
  | false =>
    cases hl : s.MEM.rdMem with
    | false => rfl
    | true => simp [(h.load _ (ports_dmemRead hn hl)).2]

theorem nextEx_withStores (redirect : Option Word) :
    nextEx redirect (s.withStores imem rf dmem) = nextEx redirect s := by
  by_cases hb : redirect ≠ none ∨ s.ID.nop = true ∨ stall s = true
  · rw [nextEx_bubble hb]
    exact nextEx_bubble hb
  · have hn : s.ID.nop = false := by
      simp only [not_or, Bool.not_eq_true] at hb
      exact hb.2.1
    obtain ⟨h1, h2⟩ := h.regs _ _ (ports_rfRead hn)
    rw [nextEx, nextEx, if_neg hb, ← rfread_withStores imem dmem h1, ← rfread_withStores imem dmem h2]
    exact if_neg hb

end

/-- Settles O46: each stage finds the same words, and MEM and WB make the same writes. -/
theorem stepReadsOnlyThroughPorts : Obligations.StepReadsOnlyThroughPorts := by
  intro s t imem dmem rf hstep hfetch hregs hload hstore
  have h : AnswersAlike s imem rf dmem := ⟨hfetch, hregs, hload, hstore⟩
  obtain ⟨hh, -, hi, -⟩ := cycleSafe_of_step hstep
  obtain rfl := eq_nextState_of_step hstep
  have hsafe : CycleSafe (s.withStores imem rf dmem) := ⟨hh, memSafe_withStores h, hi, fetchSafe_withStores h⟩
  have hex : exStage (s.withStores imem rf dmem) = exStage s := rfl
  refine (step_of_cycleSafe hsafe).trans (congrArg Host.Outcome.next ?_)
  rw [hex, fetchedWord_withStores h, nextState, nextWb_withStores h, nextEx_withStores h, ports_writeRf, ports_writeDmem]
  rfl

end Sys2Proof.Machine
end

section
/-! PROOFS. The pipeline refines the single-cycle reference (45_pipeline_engine.md R192, R199; D25): step by step, at the
end of a run that halts, and within a bound on the cycles. -/

namespace Sys2Proof.Machine

/-! ## MEM's two results apart (45_pipeline_engine.md R163) -/

theorem memData_safe {s : State} (hn : s.MEM.nop = false) (h : MemSafe s) : memData s = .ok (memValue s) := by
  unfold memData memValue
  cases hr : s.MEM.rdMem with
  | true => simp [hn, memRead_ok (h hn (.inl hr))]
  | false => simp

theorem memDmem_safe {s : State} (hn : s.MEM.nop = false) (h : MemSafe s) : memDmem s = .ok (progDmem s) := by
  unfold memDmem progDmem
  cases hw : s.MEM.wrtMem with
  | true => simp [hn, memWrite_ok _ (h hn (.inr hw))]
  | false => simp

/-- An access out of range fails the load, or the store when there is no load. -/
theorem memData_or_memDmem_unsafe {s : State} (h : ¬MemSafe s) :
    memData s = .error (.dataOutOfRange s.MEM.aluResult) ∨
      (∃ v, memData s = .ok v) ∧ memDmem s = .error (.dataOutOfRange s.MEM.aluResult) := by
  simp only [MemSafe, Classical.not_imp] at h
  obtain ⟨hn, hrw, hr⟩ := h
  cases hl : s.MEM.rdMem with
  | true => exact .inl (by simp [memData, hn, hl, memRead_error hr])
  | false =>
    have hw : s.MEM.wrtMem = true := hrw.resolve_left (by simp [hl])
    exact .inr ⟨⟨s.MEM.aluResult, by simp [memData, hl]⟩, by simp [memDmem, hn, hw, memWrite_error _ hr]⟩

/-! ## The reference's step on the instruction in EX -/

section
variable {s : State} (hn : s.EX.nop = false)
include hn

theorem progPc_of_ex : progPc s = s.EX.pc := if_pos hn

theorem progState_rs1 (hc : OperandsCurrent s) :
    readReg (progState s).rf s.EX.desc.rs1 = operandA s s.EX.desc.rs1 := (operandA_eq_progReg hn hc).symm

theorem progState_rs2 (hc : OperandsCurrent s) :
    readReg (progState s).rf s.EX.desc.rs2 = operandB0 s s.EX.desc.rs2 := (operandB0_eq_progReg hn hc).symm

theorem refStep_of_ex (hd : ExDecoded s) : refStep s.params.imem (progState s) = refExec s.EX.desc (progState s) := by
  obtain ⟨⟨hr, hh⟩, hw⟩ := hd hn
  have hpc : (progState s).pc = s.EX.pc := progPc_of_ex hn
  simp [refStep, hpc, imemRead_ok hr, hh, ← hw]

/-- The reference's register result is what MEM makes of EX's output in the next cycle. -/
theorem refResult_eq_memData (w : Option Word) (hc : OperandsCurrent s) :
    refResult s.EX.desc (progState s) = memData (nextState w (exStage s) s) := by
  have hpc : (progState s).pc = s.EX.pc := progPc_of_ex hn
  simp only [refResult, memData, nextState_MEM, exStage_eq_ofDesc hn, ExOut.ofDesc, progState_rs1 hn hc,
    progState_rs2 hn hc, hpc, true_and]
  rfl

/-- A store is no JAL, so its EX result is the ALU's. -/
theorem op_ne_jal_of_store (hd : ExDecoded s) (hst : s.EX.desc.wrtMem = true) : s.EX.desc.op ≠ .JAL := by
  obtain ⟨-, -, hs, -⟩ := desc_flags (decodeWord (s.params.imem.readWord s.EX.pc))
  rw [(hd hn).2] at hst ⊢
  intro hop
  rw [← descOf, hop] at hs
  cases hst.symm.trans hs

/-- The reference's data memory is what MEM makes of EX's output in the next cycle. -/
theorem refDmem_eq_memDmem (w : Option Word) (hd : ExDecoded s) (hc : OperandsCurrent s) :
    refDmem s.EX.desc (progState s) = memDmem (nextState w (exStage s) s) := by
  simp only [refDmem, memDmem, nextState_MEM, exStage_eq_ofDesc hn, ExOut.ofDesc, progState_rs1 hn hc,
    progState_rs2 hn hc, true_and]
  split
  next hst =>
    rw [if_neg (op_ne_jal_of_store hn hd hst)]
    rfl
  · rfl

/-- Program order goes on at EX's redirect, or at the next word. -/
theorem progPc_next_of_ex (hp : PcsInSequence s) : progPc (nextState (fetchedWord s) (exStage s) s) =
    if taken s.EX.op (operandA s s.EX.rs1) (operandB0 s s.EX.rs2) then s.EX.pc + s.EX.imm else pcPlus4 s.EX.pc := by
  have hr := exStage_redirect hn
  split
  next ht => exact progPc_redirect _ _ s _ (hr.trans (if_pos ht))
  next ht => exact progPc_seq _ s hp hn (hr.trans (if_neg ht))

theorem progRf_next_of_ex (w : Option Word) : progRf (nextState w (exStage s) s) =
    if s.EX.wrtRf then writeReg (progRf s) s.EX.rd (memValue (nextState w (exStage s) s)) else progRf s := by
  rw [progRf, wbRf_next, nextState_MEM, exStage_eq_ofDesc hn]
  simp only [ExOut.ofDesc, EXLatch.desc, true_and]

theorem nextState_MEM_valid (w : Option Word) : (nextState w (exStage s) s).MEM.nop = false := by
  rw [nextState_MEM, exStage_eq_ofDesc hn]
  rfl

theorem progState_next_of_ex (hp : PcsInSequence s) : progState (nextState (fetchedWord s) (exStage s) s) =
    { pc := if taken s.EX.op (operandA s s.EX.rs1) (operandB0 s s.EX.rs2) then s.EX.pc + s.EX.imm else pcPlus4 s.EX.pc
      rf := if s.EX.wrtRf then writeReg (progRf s) s.EX.rd (memValue (nextState (fetchedWord s) (exStage s) s))
        else progRf s
      dmem := progDmem (nextState (fetchedWord s) (exStage s) s) } := by
  rw [progState, progPc_next_of_ex hn hp, progRf_next_of_ex hn]

/-- With a safe access the reference's step gives the pipeline's next state of program order. -/
theorem refExec_of_safe (hd : ExDecoded s) (hc : OperandsCurrent s) (hp : PcsInSequence s)
    (hm : MemSafe (nextState (fetchedWord s) (exStage s) s)) :
    refExec s.EX.desc (progState s) = .next (progState (nextState (fetchedWord s) (exStage s) s)) := by
  have hmem := nextState_MEM_valid hn (fetchedWord s)
  have hpc : (progState s).pc = s.EX.pc := progPc_of_ex hn
  rw [refExec, refResult_eq_memData hn (fetchedWord s) hc, refDmem_eq_memDmem hn (fetchedWord s) hd hc,
    memData_safe hmem hm, memDmem_safe hmem hm, progState_rs1 hn hc, progState_rs2 hn hc, hpc,
    progState_next_of_ex hn hp]
  rfl

/-- With an access out of range the reference's step is the fault. -/
theorem refExec_of_unsafe (hd : ExDecoded s) (hc : OperandsCurrent s)
    (hm : ¬MemSafe (nextState (fetchedWord s) (exStage s) s)) : refExec s.EX.desc (progState s) =
      .fault (.dataOutOfRange (nextState (fetchedWord s) (exStage s) s).MEM.aluResult) := by
  rw [refExec, refResult_eq_memData hn (fetchedWord s) hc, refDmem_eq_memDmem hn (fetchedWord s) hd hc]
  obtain hl | ⟨⟨v, hv⟩, hst⟩ := memData_or_memDmem_unsafe hm
  · rw [hl]
  · rw [hv, hst]

end

/-! ## One step (45_pipeline_engine.md R192) -/

/-- With EX empty a cycle moves the front on without passing an instruction of program order. -/
theorem progPc_next_of_bubble {s t : State} (hn : s.EX.nop = true) (h : step s = .next t) : progPc t = progPc s := by
  have hs := stall_of_ex_nop hn
  obtain ⟨_, hr, -⟩ | ⟨hs', -⟩ | ⟨-, hex, hrow⟩ := step_front h
  · cases (exStage_redirect_of_nop hn).symm.trans hr
  · cases hs.symm.trans hs'
  cases hd : s.ID.nop with
  | false =>
    rw [nextEx_moves hd hs] at hex
    simp [progPc, hex, hn, hd]
  | true =>
    rw [nextEx_bubble (.inr (.inl hd))] at hex
    obtain ⟨-, hif, hid⟩ | ⟨-, -, -, hif, hid⟩ | ⟨-, -, -, hid⟩ := hrow
    · simp [progPc, hex, hn, hd, hif, hid]
    · simp [progPc, hex, hn, hd, hif, hid]
    · simp [progPc, hex, hn, hd, hid]

theorem progState_next_of_bubble {s t : State} (hn : s.EX.nop = true) (h : step s = .next t) :
    progState t = progState s := by
  rw [progState, progPc_next_of_bubble hn h, eq_nextState_of_step h, progRf_next, progDmem_next, exStage_nop hn]
  rfl

/-- A cycle that had an instruction in EX does not halt. -/
theorem halted_next_of_ex {s t : State} (hn : s.EX.nop = false) (h : step s = .next t) : t.halted = false := by
  rw [eq_nextState_of_step h, nextState_halted, allNop, hn]
  simp

/-- Settles O41: the instruction in EX makes the reference's step, whose access MEM makes one cycle later. -/
theorem stepRefinesReference : Obligations.StepRefinesReference := by
  rintro s t ⟨hz, -, -, hd, ho, hl, -, hp, -, -⟩ h
  refine ⟨fun hn => progState_next_of_bubble hn h, fun hn => ?_⟩
  have hc : OperandsCurrent s := ⟨hz, ho, hl⟩
  have ht := eq_nextState_of_step h
  rw [refStep_of_ex hn hd]
  by_cases hm : MemSafe t
  · left
    subst ht
    exact refExec_of_safe hn hd hc hp hm
  · right
    refine ⟨_, ?_, step_mem_fault (halted_next_of_ex hn h) hm⟩
    subst ht
    exact refExec_of_unsafe hn hd hc hm

/-! ## A run that ends halted (45_pipeline_engine.md R192, R193) -/

theorem step_of_run_succ {n : Nat} {s t : State} (h : run (n + 1) s = .next t) :
    ∃ u, step s = .next u ∧ run n u = .next t := by
  cases hu : step s with
  | next u => exact ⟨u, rfl, (run_next hu n).symm.trans h⟩
  | fault f => cases (run_fault hu n).symm.trans h
  | refused r => cases (run_refused hu n).symm.trans h

/-- From a halted state no run goes on. -/
theorem run_from_halted {n : Nat} {s t : State} (hh : s.halted = true) (h : run n s = .next t) : n = 0 ∧ t = s := by
  cases n with
  | zero =>
    cases h
    exact ⟨rfl, rfl⟩
  | succ n =>
    obtain ⟨u, hu, -⟩ := step_of_run_succ h
    cases (step_halted hh).symm.trans hu

/-- With nothing valid in the front the reference stands at the HALT that stopped the fetch. -/
theorem refStep_of_frontEmpty {s : State} (hf : FrontEmpty s) (hst : StoppedAtHalt s) :
    refStep s.params.imem (progState s) = .halt := by
  obtain ⟨hif, hid, hex⟩ := hf
  obtain ⟨-, hr, hw⟩ := hst hif
  have hpc : (progState s).pc = s.IF.pc := by simp [progState, progPc, hex, hid]
  simp [refStep, hpc, imemRead_ok hr, hw]

/-- What is committed when nothing is in MEM and WB is program order. -/
theorem progState_of_empty {s : State} (hm : s.MEM.nop = true) (hw : s.WB.nop = true) :
    progState s = { pc := progPc s, rf := s.rf, dmem := s.dmem } := by
  simp [progState, progRf, progDmem, wbRf, hm, hw]

theorem step_cycle {s t : State} (h : step s = .next t) : t.cycle = s.cycle + 1 := by
  rw [eq_nextState_of_step h, nextState_cycle]

/-- What a run of `n` cycles from `s` to the halted state `t` owes the reference: `k` of its steps, to a HALT at `pc`. -/
abbrev EndsAsReference (n : Nat) (s t : State) (k : Nat) (pc : Word) : Prop :=
  refSteps s.params.imem k (progState s) = some { pc, rf := t.rf, dmem := t.dmem } ∧
    refStep s.params.imem { pc, rf := t.rf, dmem := t.dmem } = .halt ∧
    t.retired = s.retired + inFlight s + k ∧ t.cycle = s.cycle + n

/-- The cycle that halts leaves registers and memory as the reference has them at the HALT. -/
theorem endsAsReference_of_halting_step {s t : State} (hst : StoppedAtHalt s) (h : step s = .next t)
    (hh : t.halted = true) : EndsAsReference 1 s t 0 (progPc s) := by
  have ht := eq_nextState_of_step h
  have ha : allNop s = true := by
    rw [ht] at hh
    exact hh
  obtain ⟨hf, hm, hw⟩ := (allNop_iff s).mp ha
  have hrf : t.rf = s.rf := by simp [ht, wbRf, hw]
  have hdm : t.dmem = s.dmem := by rw [ht, nextState_dmem, progDmem_of_no_store (.inl hm)]
  have hret : t.retired = s.retired + inFlight s := by simp [ht, wbRetired, inFlight, hm, hw]
  rw [EndsAsReference, hrf, hdm, ← progState_of_empty hm hw]
  exact ⟨rfl, refStep_of_frontEmpty hf hst, hret, step_cycle h⟩

/-- A cycle with EX empty adds nothing to what the rest of the run owes. -/
theorem endsAsReference_of_bubble {n k : Nat} {s u t : State} {pc : Word} (hn : s.EX.nop = true) (h : step s = .next u)
    (hu : EndsAsReference n u t k pc) : EndsAsReference (n + 1) s t k pc := by
  obtain ⟨hsteps, hhalt, hret, hcyc⟩ := hu
  have hr := retired_next h
  have hc := step_cycle h
  rw [step_params h] at hsteps hhalt
  rw [progState_next_of_bubble hn h] at hsteps
  rw [hn, if_pos rfl] at hr
  exact ⟨hsteps, hhalt, by omega, by omega⟩

/-- A cycle with an instruction in EX adds one reference step and one retired instruction. -/
theorem endsAsReference_of_ex {n k : Nat} {s u t : State} {pc : Word} (hn : s.EX.nop = false) (h : step s = .next u)
    (href : refStep s.params.imem (progState s) = .next (progState u)) (hu : EndsAsReference n u t k pc) :
    EndsAsReference (n + 1) s t (k + 1) pc := by
  obtain ⟨hsteps, hhalt, hret, hcyc⟩ := hu
  have hr := retired_next h
  have hc := step_cycle h
  rw [step_params h] at hsteps hhalt
  rw [hn, if_neg Bool.false_ne_true] at hr
  refine ⟨?_, hhalt, by omega, by omega⟩
  rw [refSteps, href]
  exact hsteps

/-- Settles O42: by induction on the cycles, each of them one or no step of the reference. -/
theorem haltedRunEqualsReference : Obligations.HaltedRunEqualsReference := by
  intro n
  induction n with
  | zero =>
    intro s t _ hh h ht
    cases h
    cases hh.symm.trans ht
  | succ n ih =>
    intro s t hinv hh h ht
    obtain ⟨u, hu, hrun⟩ := step_of_run_succ h
    cases huh : u.halted with
    | true =>
      obtain ⟨rfl, rfl⟩ := run_from_halted huh hrun
      obtain ⟨-, -, -, -, -, -, hst, -⟩ := hinv
      exact ⟨0, _, endsAsReference_of_halting_step hst hu huh⟩
    | false =>
      obtain ⟨k, pc, hrest⟩ := ih u t (stepKeepsInvariant s u hinv hu) huh hrun ht
      obtain ⟨-, hex⟩ := stepRefinesReference s u hinv hu
      cases hn : s.EX.nop with
      | true => exact ⟨k, pc, endsAsReference_of_bubble hn hu hrest⟩
      | false =>
        obtain href | ⟨f, -, hf⟩ := hex hn
        · exact ⟨k + 1, pc, endsAsReference_of_ex hn hu href hrest⟩
        · cases n with
          | zero =>
            cases hrun
            cases huh.symm.trans ht
          | succ n => cases (run_fault hf n).symm.trans hrun

/-! ## A bound on the cycles (45_pipeline_engine.md R185, R249) -/

/-- The cycles until the oldest instruction not yet in MEM has left EX, or with the front empty until the machine halts. -/
def cyclesLeft (s : State) : Nat :=
  if s.EX.nop = false then 1
  else if s.ID.nop = false then 2
  else if s.IF.nop = false then 3
  else if s.MEM.nop = false then 3
  else if s.WB.nop = false then 2
  else 1

theorem cyclesLeft_le (s : State) : cyclesLeft s ≤ 3 := by
  unfold cyclesLeft
  split_ifs <;> decide

theorem cyclesLeft_pos (s : State) : 0 < cyclesLeft s := by
  unfold cyclesLeft
  split_ifs <;> decide

theorem cyclesLeft_of_only_wb {s : State} (hf : FrontEmpty s) (hm : s.MEM.nop = true) : cyclesLeft s ≤ 2 := by
  obtain ⟨hif, hid, hex⟩ := hf
  cases hw : s.WB.nop <;> simp [cyclesLeft, hif, hid, hex, hm, hw]

/-- The drain comes one cycle closer to its end. -/
theorem cyclesLeft_drained {s : State} (hf : FrontEmpty s) (ha : allNop s = false) :
    cyclesLeft (drained s) + 1 ≤ cyclesLeft s := by
  obtain ⟨hif, hid, hex⟩ := hf
  cases hm : s.MEM.nop with
  | false => simp [cyclesLeft, drained, nextWb, hif, hid, hex, hm]
  | true =>
    have hw : s.WB.nop = false := by simpa [allNop, hif, hid, hex, hm] using ha
    simp [cyclesLeft, drained, nextWb, hif, hid, hex, hm, hw]

/-- With EX empty every cycle brings the next instruction, or the end, one cycle closer. -/
theorem cyclesLeft_next_of_bubble {s t : State} (hn : s.EX.nop = true) (h : step s = .next t) (ht : t.halted = false) :
    cyclesLeft t + 1 ≤ cyclesLeft s := by
  have hs := stall_of_ex_nop hn
  have hmem : t.MEM.nop = true := by
    rw [eq_nextState_of_step h, nextState_MEM, exStage_nop hn]
    rfl
  obtain ⟨_, hr, -⟩ | ⟨hs', -⟩ | ⟨-, hex, hrow⟩ := step_front h
  · cases (exStage_redirect_of_nop hn).symm.trans hr
  · cases hs.symm.trans hs'
  cases hd : s.ID.nop with
  | false =>
    rw [nextEx_moves hd hs] at hex
    simp [cyclesLeft, hex, hn, hd]
  | true =>
    rw [nextEx_bubble (.inr (.inl hd))] at hex
    obtain ⟨hif, -, -⟩ | ⟨hfn, -, -, hif, hid⟩ | ⟨hfn, -, hif, hid⟩ := hrow
    · have hf : FrontEmpty s := ⟨hif, hd, hn⟩
      obtain ⟨hh, hm, -⟩ := cycleSafe_of_step h
      rw [step_of_frontEmpty hf hh hm] at h
      cases h
      exact cyclesLeft_drained hf ht
    · have hle : cyclesLeft t ≤ 2 := cyclesLeft_of_only_wb ⟨by rw [hif], hid, by rw [hex]; rfl⟩ hmem
      have hthree : cyclesLeft s = 3 := by simp [cyclesLeft, hn, hd, hfn]
      omega
    · simp [cyclesLeft, hex, hn, hd, hfn, hid]

/-- A run of `n` cycles ends: halted, in a fault, or in a refusal. -/
abbrev Ends (n : Nat) (s : State) : Prop :=
  (∃ t, run n s = .next t ∧ t.halted = true) ∨ (∃ f, run n s = .fault f) ∨ ∃ r, run n s = .refused r

theorem ends_succ {n : Nat} {s u : State} (h : step s = .next u) (hu : Ends n u) : Ends (n + 1) s := by
  rw [Ends, run_next h]
  exact hu

/-- By induction on the bound: three cycles for each reference step left, and the cycles to the first of them. -/
theorem ends_within (m : Nat) {k : Nat} {s : State} {a : ArchState} (hinv : Invariant s) (hh : s.halted = false)
    (hsteps : refSteps s.params.imem k (progState s) = some a) (hhalt : refStep s.params.imem a = .halt)
    (hm : cyclesLeft s + 3 * k ≤ m) : ∃ n, n ≤ m ∧ Ends n s := by
  induction m generalizing k s with
  | zero =>
    have := cyclesLeft_pos s
    omega
  | succ m ih =>
    cases hu : step s with
    | fault f => exact ⟨1, by omega, .inr (.inl ⟨f, run_fault hu 0⟩)⟩
    | refused r => exact ⟨1, by omega, .inr (.inr ⟨r, run_refused hu 0⟩)⟩
    | next u =>
      cases huh : u.halted with
      | true => exact ⟨1, by omega, .inl ⟨u, run_next hu 0, huh⟩⟩
      | false =>
        have hinv' := stepKeepsInvariant s u hinv hu
        have hp := step_params hu
        obtain ⟨hbubble, hex⟩ := stepRefinesReference s u hinv hu
        have hrest {j : Nat} (hsteps' : refSteps s.params.imem j (progState u) = some a)
            (hm' : cyclesLeft u + 3 * j ≤ m) : ∃ n, n ≤ m + 1 ∧ Ends n s := by
          rw [← hp] at hsteps' hhalt
          obtain ⟨n, hn, he⟩ := ih hinv' huh hsteps' hhalt hm'
          exact ⟨n + 1, by omega, ends_succ hu he⟩
        cases hn : s.EX.nop with
        | true =>
          have hless := cyclesLeft_next_of_bubble hn hu huh
          exact hrest (hbubble hn ▸ hsteps) (by omega)
        | false =>
          have hle := cyclesLeft_le u
          cases k with
          | zero =>
            cases hsteps
            obtain href | ⟨f, href, -⟩ := hex hn <;> cases href.symm.trans hhalt
          | succ k =>
            rw [refSteps] at hsteps
            obtain href | ⟨f, href, -⟩ := hex hn
            · rw [href] at hsteps
              exact hrest hsteps (by have := cyclesLeft_pos s; omega)
            · rw [href] at hsteps
              cases hsteps

/-- Settles O43: the first reference step, or the end, is at most three cycles away. -/
theorem pipelineHaltsWithinBound : Obligations.PipelineHaltsWithinBound := by
  intro k s a hinv hh hsteps hhalt
  have hle := cyclesLeft_le s
  exact ends_within (3 * k + 3) hinv hh hsteps hhalt (by omega)

end Sys2Proof.Machine
end
